-- ==== Sys2Proof/Word.lean ====
section
/-! DEFINITION. The word types of the block: bytes, the 16-bit divisor, and the three word formats of 30_encoding R90. -/

namespace Sys2Proof

/-- A byte (00_scope R9). -/
abbrev Byte := BitVec 8

/-- The 16-bit baud divisor (10_state R32). -/
abbrev Divisor := BitVec 16

/-- A register offset, 0 to 7 (20_memory R60, R77). -/
abbrev Offset := BitVec 3

/-- Format BUS (30_encoding R91). -/
abbrev BusWord := BitVec 12

/-- Format CMD (30_encoding R104). -/
abbrev CmdWord := BitVec 32

/-- Format RSP (30_encoding R112). -/
abbrev RspWord := BitVec 10

end Sys2Proof
end

