-- ==== Sys2Proof/Config.lean ====
section
/-! DEFINITION. What an instance fixes (00_scope R5) and the free values, which the spec leaves under no law
(00_scope R10 draw, 44_line_agent R253). A free value is a constant with no body, applied to the counter State.draws. -/

namespace Sys2Proof

/-- RESET_IMAGE (R5, R43): the device values the spec decides for reset. DLL, DLH and BAUD_ACTIVE are not in it: they are draws. -/
structure ResetImage where
  rxq    : List Byte
  txq    : List Byte
  ier    : Byte
  fifoEn : Bool
  rxTrig : BitVec 2
  lcr    : Byte
  deriving DecidableEq, Repr

/-- The default RESET_IMAGE, 10_state R43. -/
def ResetImage.decided : ResetImage :=
  { rxq := [], txq := [], ier := 0x00, fifoEn := false, rxTrig := 0b00, lcr := 0x00 }

/-- The parameters of R5, but for UART_BASE (Config.uartBase). No step changes them. -/
structure Params where
  /-- FIFO_DEPTH, at least 14. -/
  fifoDepth       : Nat
  /-- N_REQ, at least 1. -/
  nReq            : Nat
  /-- POLL_LIMIT: none is the native unbounded loop. -/
  pollLimit       : Option Nat
  /-- DLH_WRITE_APPLIES: whether a write of DLH alone also loads BAUD_ACTIVE. -/
  dlhWriteApplies : Bool
  /-- RESET_IMAGE. -/
  resetImage      : ResetImage
  deriving DecidableEq, Repr

/-- The defaults of R5. -/
def Params.defaults : Params :=
  { fifoDepth := 16, nReq := 1, pollLimit := none, dlhWriteApplies := false, resetImage := ResetImage.decided }

/-- UART_BASE (R5, R67): a platform address of which the spec gives no value. -/
opaque Config.uartBase : Nat

/-- LSR at a read; only bits 7, 6 and 4 to 1 of it are used (R144, U1). -/
opaque Config.lsrReserved : Nat → Byte

/-- The byte a read of IIR returns (R138, U5). -/
opaque Config.iirByte : Nat → Byte

/-- The byte a read of MCR returns (R142, U6). -/
opaque Config.mcrByte : Nat → Byte

/-- The byte a read of MSR returns (R146, U6). -/
opaque Config.msrByte : Nat → Byte

/-- The byte a read of RX returns while RXQ is empty (R130, U13). -/
opaque Config.emptyRxByte : Nat → Byte

/-- A write to a full TXQ: true loses the new byte, false replaces the last queued one (R131, U14). -/
opaque Config.fullTxLosesNew : Nat → Bool

/-- An overrun: true loses the new byte, false replaces the newest queued one (R251, U2). -/
opaque Config.overrunLosesNew : Nat → Bool

/-- The line-status interrupt condition ls_cond (R276, U24). -/
opaque Config.lsCond : Nat → Bool

/-- DLL after reset (R43, U16). -/
opaque Config.resetDll : Nat → Byte

/-- DLH after reset (R43, U16). -/
opaque Config.resetDlh : Nat → Byte

/-- BAUD_ACTIVE after reset (R43, U16). -/
opaque Config.resetBaud : Nat → Divisor

/-- Which pending requester the arbiter grants when the schedule names none (R234, U19). -/
opaque Config.grantChoice : Nat → Nat

end Sys2Proof
end

