-- ==== Sys2Proof/Syntax.lean ====
section
/-! DEFINITION. The syntax of the block: the 26 instructions of the opcode table, the command names, responses, and the
reasons the decoder rejects a command word by. -/

namespace Sys2Proof

/-- The instructions: 20 register operations (40_register_ops) and 6 commands (41, 42, 43). A write carries its byte `b`;
CONFIGURE carries its interrupt policy and divisor, SET_BAUD its divisor, SEND_BYTE its byte. -/
inductive Instr where
  | rdRbr
  | wrThr (b : Byte)
  | rdDll
  | wrDll (b : Byte)
  | rdIer
  | wrIer (b : Byte)
  | rdDlh
  | wrDlh (b : Byte)
  | rdIir
  | wrFcr (b : Byte)
  | rdLcr
  | wrLcr (b : Byte)
  | rdMcr
  | wrMcr (b : Byte)
  | rdLsr
  | wrLsr (b : Byte)
  | rdMsr
  | wrMsr (b : Byte)
  | rd7
  | wr7 (b : Byte)
  | configure (p : BitVec 3) (d : Divisor)
  | setBaud (d : Divisor)
  | sendByte (b : Byte)
  | tryReceive
  | receiveByte
  | pollStatus
  deriving DecidableEq, Repr

/-- The six commands (10_state R34, 30_encoding R105). -/
inductive Cmd where
  | configure | setBaud | sendByte | tryReceive | receiveByte | pollStatus
  deriving DecidableEq, Repr

/-- A word the decoder reads: of format BUS or of format CMD (R90). -/
inductive InstrWord where
  | bus (w : BusWord)
  | cmd (w : CmdWord)
  deriving DecidableEq, Repr

/-- Why a 32-bit word is no command (R106). -/
inductive DecodeError where
  /-- OP is 6 to 15. -/
  | reservedOpcode
  /-- A field that must be 0 is not. -/
  | mustBeZero
  /-- CONFIGURE with WLS other than 11. -/
  | wordLengthNotEight
  /-- CONFIGURE with TRIG other than 11. -/
  | triggerNotFourteen
  deriving DecidableEq, Repr

/-- KIND of a response (R112). -/
inductive RspKind where
  | done | data | noData | timeout
  deriving DecidableEq, Repr

/-- A response (R112). -/
structure Response where
  kind : RspKind
  data : Byte
  deriving DecidableEq, Repr

end Sys2Proof
end

