-- ==== Sys2Proof/Machine/State.lean ====
section
/-! DEFINITION. The state of one block instance, (DEV, SEQ, ARB, GHOST) of 10_state R20, beside the parameters of 00_scope R5
and the model's own three fields; the reasons a step stops; the state after reset (10_state R43). -/

namespace Sys2Proof.Machine

/-- The access mode, a function of LCR bit 7 (10_state R26). -/
inductive Mode where
  | normal | divisorAccess
  deriving DecidableEq, Repr

/-- Direction of a register operation. -/
inductive Dir where
  | read | write
  deriving DecidableEq, Repr

/-- DEV, the state behind the register port (R21 to R25, R32, R33). -/
structure Dev where
  /-- RXQ, oldest at the head (R21). -/
  rxq        : List Byte
  /-- TXQ, oldest at the head (R22). -/
  txq        : List Byte
  /-- IER (R23). -/
  ier        : Byte
  /-- FIFO_EN (R24). -/
  fifoEn     : Bool
  /-- RX_TRIG (R24). -/
  rxTrig     : BitVec 2
  /-- LCR (R25). -/
  lcr        : Byte
  /-- DLL (R32). -/
  dll        : Byte
  /-- DLH (R32). -/
  dlh        : Byte
  /-- BAUD_ACTIVE (R33). -/
  baudActive : Divisor
  deriving DecidableEq, Repr

/-- SEQ.phase (R34). -/
inductive Phase where
  | idle | busy
  deriving DecidableEq, Repr

/-- SEQ, the sequencer (R34 to R37). -/
structure Seq where
  phase : Phase
  /-- The running command. -/
  cmd   : Cmd
  /-- The requester that issued it. -/
  req   : Nat
  /-- The next micro-step, this block's program counter (R47). -/
  step  : Nat
  /-- Operand latch D. -/
  d     : Divisor
  /-- Operand latch P. -/
  p     : BitVec 3
  /-- Operand latch B. -/
  b     : Byte
  /-- The byte of the running command's most recent RegRead (R36). -/
  t     : Byte
  /-- Unsuccessful polls of the running command (R37). -/
  polls : Nat
  deriving DecidableEq, Repr

/-- ARB, the arbiter (R44): two partial maps from requester number, each a list of pairs with rising keys. -/
structure Arb where
  /-- Submitted and not yet granted. -/
  pending : List (Nat × CmdWord)
  /-- Produced and not yet taken. -/
  resp    : List (Nat × Response)
  deriving DecidableEq, Repr

/-- One entry of TRACE (R38): the mode is the one before the operation. -/
structure TraceEntry where
  dir  : Dir
  off  : Offset
  data : Byte
  mode : Mode
  deriving DecidableEq, Repr

/-- GHOST (R38). -/
structure Ghost where
  trace : List TraceEntry
  txlog : List Byte
  deriving DecidableEq, Repr

/-- One turn of one agent (00_scope R6, 20_memory R73). -/
inductive Action where
  /-- Requester `i` submits the word `w` (R232). -/
  | submit (i : Nat) (w : CmdWord)
  /-- Requester `i` takes its response (R235). -/
  | take (i : Nat)
  /-- The arbiter grants requester `i` (R234). -/
  | grant (i : Nat)
  /-- The sequencer performs its next micro-step (R228). -/
  | microStep
  /-- RXARRIVE (R250). -/
  | rxArrive (b : Byte)
  /-- RXOVERRUN (R251). -/
  | rxOverrun (b : Byte)
  /-- TXDRAIN (R252). -/
  | txDrain
  /-- A second master puts a bus word on the register port, against R76 (R190, program P4). -/
  | raw (w : BusWord)
  /-- The same by platform address (R67). -/
  | access (dir : Dir) (addr : Nat) (b : Byte)
  /-- The reset input is asserted and released (R300, R302). -/
  | reset
  deriving DecidableEq, Repr

/-- The state. -/
structure State where
  /-- The parameters of R5; no step changes them. -/
  par      : Params
  dev      : Dev
  seq      : Seq
  arb      : Arb
  ghost    : Ghost
  /-- The model's own: the byte the register port returned last (R62). -/
  rdata    : Byte
  /-- The model's own: the counter that indexes the free values of Config. -/
  draws    : Nat
  /-- The model's own: whose turn is next, the first first; empty when only the block itself moves. -/
  schedule : List Action
  deriving DecidableEq, Repr

/-- Why the machine stops: R8's "Stuck", no rule enables the step. All are SAFE: nothing is proved past one. -/
inductive Fault where
  /-- Raised by exec of a command that the sequencer is not running with those operands (R34, R234). Safe. -/
  | commandNotRunning
  /-- Raised by exec of an operation at offset 0 or 1 in the mode that does not select it (R92). Safe. -/
  | notSelected
  /-- Raised by exec of a command whose SEQ.step is past its microprogram, which no run reaches (R47, R228). Safe. -/
  | noSuchMicroStep
  /-- Raised by step: the scheduled submission is not enabled (R232). Safe. -/
  | submitNotEnabled
  /-- Raised by step: requester has no response to take (R235). Safe. -/
  | takeNotEnabled
  /-- Raised by step: the sequencer is busy or the requester has no pending command (R234). Safe. -/
  | grantNotEnabled
  /-- Raised by step: a micro-step is scheduled while the sequencer is idle (R34). Safe. -/
  | microStepNotEnabled
  /-- Raised by step: RXARRIVE with RXQ full (R250). Safe. -/
  | rxArriveNotEnabled
  /-- Raised by step: RXOVERRUN with RXQ not full (R251). Safe. -/
  | rxOverrunNotEnabled
  /-- Raised by step: TXDRAIN with TXQ empty (R252). Safe. -/
  | txDrainNotEnabled
  /-- Raised by step: a platform address outside the window of eight bytes (R67, R77). Safe. -/
  | addressOutsideWindow
  deriving DecidableEq, Repr

/-- R8's "Refusal": the spec gives the operation no meaning. All are SAFE. -/
inductive Refusal where
  /-- Raised by exec for an instruction that has no meaning yet. Safe. -/
  | notModelled (mnemonic : String)
  /-- WR_MCR (R143). Safe. -/
  | modemControlWrite
  /-- WR_LSR (R145). Safe. -/
  | lineStatusWrite
  /-- WR_MSR (R147). Safe. -/
  | modemStatusWrite
  /-- RD_7 (R148). Safe. -/
  | offset7Read
  /-- WR_7 (R149). Safe. -/
  | offset7Write
  /-- WR_IER with any of bits 7:3 set (R135). Safe. -/
  | reservedIerBits
  /-- WR_FCR with any of bits 5:3 set (R139). Safe. -/
  | reservedFcrBits
  /-- A submitted word that is no command (R106, R232). Safe. -/
  | malformedCommand (e : DecodeError)
  deriving DecidableEq, Repr

/-- DEV after reset: the image, with DLL, DLH and BAUD_ACTIVE drawn at index `n` (R43). -/
def Dev.ofImage (r : ResetImage) (n : Nat) : Dev :=
  { rxq := r.rxq, txq := r.txq, ier := r.ier, fifoEn := r.fifoEn, rxTrig := r.rxTrig, lcr := r.lcr
    dll := Config.resetDll n, dlh := Config.resetDlh n, baudActive := Config.resetBaud n }

/-- SEQ after reset (R43): idle, polls 0; the rest is unspecified there and named by log 5. -/
def Seq.reset : Seq :=
  { phase := .idle, cmd := .configure, req := 0, step := 0, d := 0, p := 0, b := 0, t := 0, polls := 0 }

/-- The machine right after reset, with the default parameters (R5, R43, R300). -/
def State.reset : State :=
  { par := Params.defaults
    dev := Dev.ofImage ResetImage.decided 0
    seq := Seq.reset
    arb := { pending := [], resp := [] }
    ghost := { trace := [], txlog := [] }
    rdata := 0
    draws := 1
    schedule := [] }

end Sys2Proof.Machine
end

