-- ==== Sys2Proof/Machine/Flags.lean ====
section
/-! DEFINITION. The three condition bits (10_state R48), the line status byte (R29), the capacity and trigger threshold (R39), the
FCR shadow (R24), and the outputs irq_o and baud_o (R45, 60_exceptions R276). -/

namespace Sys2Proof.Machine

/-- The divisor-latch-enable bit, LCR bit 7 (R96). -/
def Dev.dlab (d : Dev) : Bool := d.lcr.getLsbD 7

/-- MODE(DEV) (R26). -/
def Dev.mode (d : Dev) : Mode := if d.dlab then .divisorAccess else .normal

/-- data-ready: at least one byte available (R29, R48). -/
def Dev.dataReady (d : Dev) : Bool := !d.rxq.isEmpty

/-- tx-empty (R29, R48). -/
def Dev.txEmpty (d : Dev) : Bool := d.txq.isEmpty

/-- The LSR byte composed at a read: bit 0 data-ready, bit 5 tx-empty, the six others from `free` (R97, R144). -/
def Dev.lsr (d : Dev) (free : Byte) : Byte :=
  (free &&& 0xDE) ||| (if d.dataReady then 0x01 else 0) ||| (if d.txEmpty then 0x20 else 0)

/-- What a requester may read off the byte of a POLL_STATUS response (43_tx_rx_status R224). -/
structure LineStatus where
  dataReady : Bool
  txEmpty   : Bool
  deriving DecidableEq, Repr

/-- LineStatus of an LSR byte: bits 0 and 5 only (R224). -/
def lineStatus (v : Byte) : LineStatus := ⟨v.getLsbD 0, v.getLsbD 5⟩

/-- cap(DEV): FIFO_DEPTH with the FIFO enabled, 1 without (R39). -/
def Dev.cap (d : Dev) (p : Params) : Nat := if d.fifoEn then p.fifoDepth else 1

/-- TRIG_BYTES (R98): code 11 is the source's 14; 00, 01 and 10 are general knowledge (PRESUMED, unsafe: log 24). -/
def trigBytes (code : BitVec 2) : Nat :=
  match code.getLsbD 1, code.getLsbD 0 with
  | false, false => 1
  | false, true  => 4
  | true,  false => 8
  | true,  true  => 14

/-- trig_bytes(DEV) (R39). -/
def Dev.trigThreshold (d : Dev) : Nat := if d.fifoEn then trigBytes d.rxTrig else 1

/-- FCR_SHADOW = {RX_TRIG, 000, 0, 0, FIFO_EN} (R24). -/
def Dev.fcrShadow (d : Dev) : Byte := (d.rxTrig.zeroExtend 8 <<< 6) ||| (BitVec.ofBool d.fifoEn).zeroExtend 8

/-- rx_cond (R276). -/
def Dev.rxCond (d : Dev) : Bool := d.trigThreshold ≤ d.rxq.length

/-- The level irq_o for a value `ls` of the line-status condition (R276; DESIGN CHOICE of the spec's D20, unsafe: log 18). -/
def Dev.irq (d : Dev) (ls : Bool) : Bool :=
  (d.ier.getLsbD 0 && d.rxCond) || (d.ier.getLsbD 1 && d.txEmpty) || (d.ier.getLsbD 2 && ls)

/-- The output irq_o, ls_cond being a free value of this instant (R45, R276). -/
def State.irqO (s : State) : Bool := s.dev.irq (Config.lsCond s.draws)

/-- The output baud_o (R45). -/
def State.baudO (s : State) : Divisor := s.dev.baudActive

end Sys2Proof.Machine
end

