-- ==== Sys2Proof/Machine/Operands.lean ====
section
/-! DEFINITION. The named constants (30_encoding R101), operand assembly (R102, R103) and the configurator's encoders
(42_configure R200 to R202), the operands of the microprograms, and the window's address decode (20_memory R67). -/

namespace Sys2Proof.Machine

def offRxTx : Offset := 0
def offIer : Offset := 1
def offFcr : Offset := 2
def offLcr : Offset := 3
def offMcr : Offset := 4
def offLsr : Offset := 5
def offMsr : Offset := 6
/-- OFF_DLL, the same offset as OFF_RXTX (R101). -/
def offDll : Offset := 0
/-- OFF_DLH, the same offset as OFF_IER (R101). -/
def offDlh : Offset := 1

def fcrFen : Byte := 0x01
def fcrClrRx : Byte := 0x02
def fcrClrTx : Byte := 0x04
def fcrTrig14 : Byte := 0xC0
def lcrWls8 : Byte := 0x03
def lcrDlab : Byte := 0x80

/-- The line-control encoder lcr_byte(dlab) (R200). -/
def lcrByte (dlab : Bool) : Byte := lcrWls8 ||| (if dlab then lcrDlab else 0)

/-- The FIFO-control encoder, FCR_CONFIG = 0xC7 (R201, R103). -/
def fcrConfig : Byte := fcrFen ||| fcrClrRx ||| fcrClrTx ||| fcrTrig14

/-- The interrupt-policy encoder, zext8(P) (R202). -/
def ierValue (p : BitVec 3) : Byte := p.zeroExtend 8

/-- D[15:8], written to DLH (R102). -/
def divHi (d : Divisor) : Byte := d.extractLsb' 8 8

/-- D[7:0], written to DLL (R102). -/
def divLo (d : Divisor) : Byte := d.extractLsb' 0 8

/-- {hi, lo}, the latch value (R102, R68). -/
def divisorOf (hi lo : Byte) : Divisor := (hi.zeroExtend 16 <<< 8) ||| lo.zeroExtend 16

/-- ENTER_DA's modification: bit 7 set, bits 6:0 kept (R182, R116). -/
def setDlab (v : Byte) : Byte := v ||| lcrDlab

/-- EXIT_DA's modification: bit 7 clear, bits 6:0 kept (R183, R116). -/
def clearDlab (v : Byte) : Byte := v &&& 0x7F

/-- The address of a register: UART_BASE + off, stride one byte (R67). -/
def regAddr (off : Offset) : Nat := Config.uartBase + off.toNat

/-- The offset a platform address selects; none outside the window's eight bytes (R67, R77). -/
def windowOffset (addr : Nat) : Option Offset :=
  if Config.uartBase ≤ addr ∧ addr < Config.uartBase + 8 then some (BitVec.ofNat 3 (addr - Config.uartBase)) else none

end Sys2Proof.Machine
end

