-- ==== Sys2Proof/Decode.lean ====
section
/-! DEFINITION. The codec: bus words and the offset decode (30_encoding R91, R92), command words (R104 to R106), response
words (R112), and after each decoder its encoder. -/

namespace Sys2Proof

/-! ### Bus words -/

/-- The bus word of RegRead(off), `off << 8`: RW 0, WDATA 0 (R91). -/
def busRead (off : Offset) : BusWord := off.zeroExtend 12 <<< 8

/-- The bus word of RegWrite(off, b), `0x800 | off << 8 | b`: RW 1 (R91). -/
def busWrite (off : Offset) (b : Byte) : BusWord := 0x800#12 ||| (off.zeroExtend 12 <<< 8) ||| b.zeroExtend 12

/-- RW, bit 11 (R91). -/
def BusWord.isWrite (w : BusWord) : Bool := w.getLsbD 11

/-- OFF, bits 10:8 (R91). -/
def BusWord.off (w : BusWord) : Offset := w.extractLsb' 8 3

/-- WDATA, bits 7:0 (R91). -/
def BusWord.wdata (w : BusWord) : Byte := w.extractLsb' 0 8

/-- The offset decode of R92, total: RW, the three bits of OFF from the top, and for offsets 0 and 1 the divisor-latch-enable
bit `dlab`, sampled before the operation. WDATA of a read is ignored. -/
def decodeBus (dlab : Bool) (w : BusWord) : Instr :=
  match w.getLsbD 11, w.getLsbD 10, w.getLsbD 9, w.getLsbD 8 with
  | false, false, false, false => if dlab then .rdDll else .rdRbr
  | true,  false, false, false => if dlab then .wrDll (BusWord.wdata w) else .wrThr (BusWord.wdata w)
  | false, false, false, true  => if dlab then .rdDlh else .rdIer
  | true,  false, false, true  => if dlab then .wrDlh (BusWord.wdata w) else .wrIer (BusWord.wdata w)
  | false, false, true,  false => .rdIir
  | true,  false, true,  false => .wrFcr (BusWord.wdata w)
  | false, false, true,  true  => .rdLcr
  | true,  false, true,  true  => .wrLcr (BusWord.wdata w)
  | false, true,  false, false => .rdMcr
  | true,  true,  false, false => .wrMcr (BusWord.wdata w)
  | false, true,  false, true  => .rdLsr
  | true,  true,  false, true  => .wrLsr (BusWord.wdata w)
  | false, true,  true,  false => .rdMsr
  | true,  true,  true,  false => .wrMsr (BusWord.wdata w)
  | false, true,  true,  true  => .rd7
  | true,  true,  true,  true  => .wr7 (BusWord.wdata w)

/-! ### Command words -/

/-- ARG, bits 15:0 (R104). -/
def CmdWord.arg (w : CmdWord) : Divisor := w.extractLsb' 0 16

/-- IERP, bits 18:16 (R104). -/
def CmdWord.ierp (w : CmdWord) : BitVec 3 := w.extractLsb' 16 3

/-- ARG[7:0], the byte of SEND_BYTE (R104). -/
def CmdWord.byte (w : CmdWord) : Byte := w.extractLsb' 0 8

/-- The commands in the order of their opcodes (R105). -/
def Cmd.all : List Cmd := [.configure, .setBaud, .sendByte, .tryReceive, .receiveByte, .pollStatus]

/-- The match column of R105. -/
def Cmd.pattern : Cmd → CmdWord
  | .configure   => 0x00780000
  | .setBaud     => 0x10000000
  | .sendByte    => 0x20000000
  | .tryReceive  => 0x30000000
  | .receiveByte => 0x40000000
  | .pollStatus  => 0x50000000

/-- The mask column of R105. -/
def Cmd.mask : Cmd → CmdWord
  | .configure   => 0xFFF80000
  | .setBaud     => 0xFFFF0000
  | .sendByte    => 0xFFFFFF00
  | .tryReceive  => 0xFFFFFFFF
  | .receiveByte => 0xFFFFFFFF
  | .pollStatus  => 0xFFFFFFFF

/-- The word matches the command's row under that row's mask (R106). -/
def Cmd.matches (c : Cmd) (w : CmdWord) : Bool := w &&& c.mask == c.pattern

/-- The command with the operands its latches D, P and B hold (R35, R105). -/
def Cmd.instr (c : Cmd) (d : Divisor) (p : BitVec 3) (b : Byte) : Instr :=
  match c with
  | .configure   => .configure p d
  | .setBaud     => .setBaud d
  | .sendByte    => .sendByte b
  | .tryReceive  => .tryReceive
  | .receiveByte => .receiveByte
  | .pollStatus  => .pollStatus

/-- The reason a word that matches no row is rejected by (R104, R106). -/
def cmdError (w : CmdWord) : DecodeError :=
  if 6 ≤ (w.extractLsb' 28 4).toNat then .reservedOpcode
  else if w.extractLsb' 28 4 = 0#4 ∧ w.extractLsb' 23 5 = 0#5 then
    if w.extractLsb' 21 2 = 0b11#2 then .triggerNotFourteen else .wordLengthNotEight
  else .mustBeZero

/-- Which command a word is (R105, R106). -/
def cmdOf (w : CmdWord) : Except DecodeError Cmd :=
  match Cmd.all.find? (fun c => c.matches w) with
  | some c => .ok c
  | none   => .error (cmdError w)

/-- A command word decoded (R104 to R106). -/
def decodeCmd (w : CmdWord) : Except DecodeError Instr :=
  match cmdOf w with
  | .ok c    => .ok (c.instr (CmdWord.arg w) (CmdWord.ierp w) (CmdWord.byte w))
  | .error e => .error e

/-- The decoder over both formats; `dlab` is the divisor-latch-enable bit before the operation. -/
def decode (dlab : Bool) : InstrWord → Except DecodeError Instr
  | .bus w => .ok (decodeBus dlab w)
  | .cmd w => decodeCmd w

/-! ### The encoder -/

/-- A command word laid out by R104: OP from bit 28, WLS from 21, TRIG from 19, IERP from 16, ARG from 0; bits 27:23 zero. -/
def cmdWord (op : BitVec 4) (wls trig : BitVec 2) (ierp : BitVec 3) (arg : Divisor) : CmdWord :=
  (op.zeroExtend 32 <<< 28) ||| (wls.zeroExtend 32 <<< 21) ||| (trig.zeroExtend 32 <<< 19) |||
    (ierp.zeroExtend 32 <<< 16) ||| arg.zeroExtend 32

/-- The words of an instruction (R91, R92, R104, R105); a read in its canonical form. -/
def encode : Instr → InstrWord
  | .rdRbr   => .bus (busRead 0)
  | .wrThr b => .bus (busWrite 0 b)
  | .rdDll   => .bus (busRead 0)
  | .wrDll b => .bus (busWrite 0 b)
  | .rdIer   => .bus (busRead 1)
  | .wrIer b => .bus (busWrite 1 b)
  | .rdDlh   => .bus (busRead 1)
  | .wrDlh b => .bus (busWrite 1 b)
  | .rdIir   => .bus (busRead 2)
  | .wrFcr b => .bus (busWrite 2 b)
  | .rdLcr   => .bus (busRead 3)
  | .wrLcr b => .bus (busWrite 3 b)
  | .rdMcr   => .bus (busRead 4)
  | .wrMcr b => .bus (busWrite 4 b)
  | .rdLsr   => .bus (busRead 5)
  | .wrLsr b => .bus (busWrite 5 b)
  | .rdMsr   => .bus (busRead 6)
  | .wrMsr b => .bus (busWrite 6 b)
  | .rd7     => .bus (busRead 7)
  | .wr7 b   => .bus (busWrite 7 b)
  | .configure p d => .cmd (cmdWord 0 0b11 0b11 p d)
  | .setBaud d     => .cmd (cmdWord 1 0 0 0 d)
  | .sendByte b    => .cmd (cmdWord 2 0 0 0 (b.zeroExtend 16))
  | .tryReceive    => .cmd (cmdWord 3 0 0 0 0)
  | .receiveByte   => .cmd (cmdWord 4 0 0 0 0)
  | .pollStatus    => .cmd (cmdWord 5 0 0 0 0)

/-- The canonical form of a word: a bus read carries WDATA 0 (R91). -/
def InstrWord.canonical : InstrWord → InstrWord
  | .bus w => .bus (if BusWord.isWrite w then w else busRead (BusWord.off w))
  | .cmd w => .cmd w

/-- The divisor-latch-enable bit under which the offset decode selects the operation (R92); none where either value does. -/
def Instr.selectedBy : Instr → Option Bool
  | .rdRbr | .wrThr _ | .rdIer | .wrIer _ => some false
  | .rdDll | .wrDll _ | .rdDlh | .wrDlh _ => some true
  | .rdIir | .wrFcr _ | .rdLcr | .wrLcr _ | .rdMcr | .wrMcr _ | .rdLsr | .wrLsr _ | .rdMsr | .wrMsr _ | .rd7 | .wr7 _ => none
  | .configure _ _ | .setBaud _ | .sendByte _ | .tryReceive | .receiveByte | .pollStatus => none

/-- The instruction of an opcode-table word, bits numbered as the table numbers them: up to 16 bits a bus word, read in the
Normal mode that reset leaves (log 12), above that a command word. -/
def decodeTableWord (nbits w : Nat) : Option Instr :=
  if nbits ≤ 16 then
    if w < 4096 then some (decodeBus false (BitVec.ofNat 12 w)) else none
  else if w < 4294967296 then (decodeCmd (BitVec.ofNat 32 w)).toOption
  else none

/-! ### Response words -/

/-- KIND as two bits (R112). -/
def RspKind.code : RspKind → BitVec 2
  | .done => 0 | .data => 1 | .noData => 2 | .timeout => 3

/-- The response word, KIND in bits 9:8 and DATA in bits 7:0 (R112). -/
def encodeRsp (r : Response) : RspWord := (r.kind.code.zeroExtend 10 <<< 8) ||| r.data.zeroExtend 10

/-- KIND of a response word (R112). -/
def rspKindOf (w : RspWord) : RspKind :=
  match w.getLsbD 9, w.getLsbD 8 with
  | false, false => .done
  | false, true  => .data
  | true,  false => .noData
  | true,  true  => .timeout

/-- A response word decoded; none where DATA is not 0x00 though KIND is not DATA (R113). -/
def decodeRsp (w : RspWord) : Option Response :=
  if rspKindOf w = .data ∨ w.extractLsb' 0 8 = 0#8 then some ⟨rspKindOf w, w.extractLsb' 0 8⟩ else none

end Sys2Proof
end

