-- ==== Sys2Proof/WellFormed.lean ====
section
/-! DEFINITION. The checks on syntax: command words (30_encoding R106), operands with reserved bits (R93, R95), responses
(R112), and the parameters of 00_scope R5. -/

namespace Sys2Proof

/-- A command word is well formed exactly when it matches one row of R105 (R106). -/
def CmdWord.wellFormed (w : CmdWord) : Bool := (Cmd.all.filter (fun c => c.matches w)).length == 1

/-- No reserved bit of the operand is set: IER bits 7:3 (R93), FCR bits 5:3 (R95). Every other operand is legal at every value. -/
def Instr.wellFormed : Instr → Bool
  | .wrIer b => b &&& 0xF8 == 0
  | .wrFcr b => b &&& 0x38 == 0
  | _ => true

/-- DATA is 0x00 unless KIND is DATA (R112). -/
def Response.wellFormed (r : Response) : Bool := r.kind == .data || r.data == 0

/-- The default reset image meets this: queues within the capacity, IER bits 7:3 clear (R21 to R23, R39). -/
def ResetImage.wellFormed (r : ResetImage) (depth : Nat) : Bool :=
  r.rxq.length ≤ (if r.fifoEn then depth else 1) && r.txq.length ≤ (if r.fifoEn then depth else 1) && r.ier &&& 0xF8 == 0

/-- The ranges of R5: FIFO_DEPTH at least 14, N_REQ at least 1, POLL_LIMIT not some 0 (R229), a legal RESET_IMAGE. -/
def Params.wellFormed (p : Params) : Bool :=
  14 ≤ p.fifoDepth && 1 ≤ p.nReq && p.pollLimit != some 0 && p.resetImage.wellFormed p.fifoDepth

end Sys2Proof
end

