-- ==== Sys2Proof/Machine/Ops.lean ====
section
/-! DEFINITION. The shared operations: updates of single fields, partial maps, queues, the end of a register operation with its
TRACE entry (40_register_ops R150, R151), draws (44_line_agent R253), the sequencer's control flow (43_tx_rx_status R228, R229,
R235), and reset (70_reset_and_hazards R300, R302). The block takes no exception (60_exceptions R271, R280), so no operation
enters or leaves one. -/

namespace Sys2Proof.Machine

/-- What one step answers. -/
abbrev Result := Host.Outcome State Fault Refusal

/-- Goes on from a next state; a stop stays a stop. -/
def andThen (o : Result) (k : State → Result) : Result :=
  match o with
  | .next s    => k s
  | .fault r   => .fault r
  | .refused r => .refused r

/-! ### Updates -/

def State.setDev (s : State) (d : Dev) : State := { s with dev := d }
def State.setSeq (s : State) (q : Seq) : State := { s with seq := q }
def State.setArb (s : State) (a : Arb) : State := { s with arb := a }
def State.setSchedule (s : State) (l : List Action) : State := { s with schedule := l }

/-- Uses up the free values at the present index (R253: chosen afresh at each use). -/
def State.advance (s : State) : State := { s with draws := s.draws + 1 }

/-- Appends one entry to TRACE (R151). -/
def State.record (s : State) (e : TraceEntry) : State := { s with ghost := { s.ghost with trace := s.ghost.trace ++ [e] } }

/-- Appends one byte to TXLOG (R252). -/
def State.logTx (s : State) (b : Byte) : State := { s with ghost := { s.ghost with txlog := s.ghost.txlog ++ [b] } }

/-- The register port answers `v` (R62). -/
def State.setRdata (s : State) (v : Byte) : State := { s with rdata := v }

/-! ### Partial maps from requester number (R44), lists of pairs with rising keys -/

/-- The canonical form: keys strictly rising. -/
abbrev MapWf {α : Type} (m : List (Nat × α)) : Prop := (m.map Prod.fst).Pairwise (· < ·)

def mapGet {α : Type} (k : Nat) : List (Nat × α) → Option α
  | [] => none
  | (j, v) :: m => if j = k then some v else mapGet k m

def mapPut {α : Type} (k : Nat) (x : α) : List (Nat × α) → List (Nat × α)
  | [] => [(k, x)]
  | (j, v) :: m => if k < j then (k, x) :: (j, v) :: m else if j = k then (k, x) :: m else (j, v) :: mapPut k x m

def mapDel {α : Type} (k : Nat) : List (Nat × α) → List (Nat × α)
  | [] => []
  | (j, v) :: m => if j = k then m else (j, v) :: mapDel k m

/-! ### Queues -/

/-- The last element replaced by `b` (R131, R251). -/
def replaceLast (q : List Byte) (b : Byte) : List Byte := q.dropLast ++ [b]

/-! ### The end of a register operation (R150, R151) -/

/-- A read at `off` ends: the device is left as `d`, the port answers `v`, and TRACE gets (R, off, v, m) with m the mode before. -/
def readDone (off : Offset) (v : Byte) (d : Dev) (s : State) : Result :=
  .next (((s.record ⟨.read, off, v, s.dev.mode⟩).setDev d).setRdata v)

/-- A write of `b` at `off` ends: the device is left as `d`, and TRACE gets (W, off, b, m) with m the mode before. -/
def writeDone (off : Offset) (b : Byte) (d : Dev) (s : State) : Result :=
  .next ((s.record ⟨.write, off, b, s.dev.mode⟩).setDev d)

/-- A read whose value is a draw and which changes no device state; `f` is the free value of that register (R253). -/
def readDraw (off : Offset) (f : Nat → Byte) (s : State) : Result :=
  readDone off (f s.draws) s.dev s.advance

/-- The offset decode selects the operation only under this value of LCR bit 7 (R92). -/
def selectedUnder (dlab : Bool) (s : State) (o : Result) : Result :=
  if s.dev.dlab = dlab then o else .fault .notSelected

/-! ### The sequencer (10_state R34 to R37, 43_tx_rx_status R228, R229, R235) -/

/-- The running command with its latched operands (R35). -/
def Seq.instr (q : Seq) : Instr := q.cmd.instr q.d q.p q.b

/-- The sequencer takes the command word `w` of requester `i` (R234). -/
def Seq.load (q : Seq) (i : Nat) (c : Cmd) (w : CmdWord) : Seq :=
  { q with phase := .busy, cmd := c, req := i, step := 0, polls := 0
           d := CmdWord.arg w, p := CmdWord.ierp w, b := CmdWord.byte w }

/-- A micro-step of `i` runs only while the sequencer is running `i` (R34). -/
def whileRunning (i : Instr) (s : State) (o : Result) : Result :=
  if s.seq.phase = .busy ∧ s.seq.instr = i then o else .fault .commandNotRunning

/-- SEQ.step <- k (R228). -/
def goto (k : Nat) (s : State) : Result := .next (s.setSeq { s.seq with step := k })

/-- SEQ.t <- the byte the port returned (R36). -/
def latchT (s : State) : State := s.setSeq { s.seq with t := s.rdata }

/-- respond(kind, data): the response goes to the requester that issued the command and the sequencer is idle (R235). -/
def respond (kind : RspKind) (data : Byte) (s : State) : Result :=
  .next ((s.setArb { s.arb with resp := mapPut s.seq.req ⟨kind, data⟩ s.arb.resp }).setSeq { s.seq with phase := .idle })

/-- POLL_LIMIT is set and `n` unsuccessful polls reach it (R229). -/
def pollLimitReached (p : Params) (n : Nat) : Bool :=
  match p.pollLimit with
  | none   => false
  | some l => l ≤ n

/-- poll_failed(k) (R229). -/
def pollFailed (k : Nat) (s : State) : Result :=
  let s' := s.setSeq { s.seq with polls := s.seq.polls + 1 }
  if pollLimitReached s.par s'.seq.polls then respond .timeout 0 s' else goto k s'

/-! ### Reset (R300, R302) -/

/-- Every element at its reset value with fresh draws; the parameters and the turns still to come stay (log 20). -/
def takeReset (s : State) : State :=
  { State.reset with
    par := s.par
    dev := Dev.ofImage s.par.resetImage s.draws
    draws := s.draws + 1
    schedule := s.schedule }

end Sys2Proof.Machine
end

