-- ==== Sys2Proof/Machine/Arbiter.lean ====
section
/-! DEFINITION. The command arbiter's actions submit, take and grant (43_tx_rx_status R232, R234, R235). -/

namespace Sys2Proof.Machine

/-- Requester `i`'s command is the one running. -/
def State.isRunningFor (s : State) (i : Nat) : Bool := s.seq.phase == .busy && s.seq.req == i

/-- Requester `i` may submit: it exists and has no command outstanding, pending, running or answered (R232, R233; log 21). -/
def State.maySubmit (s : State) (i : Nat) : Bool :=
  i < s.par.nReq && (mapGet i s.arb.pending).isNone && (mapGet i s.arb.resp).isNone && !s.isRunningFor i

/-- Submit (R232): a word that is no command is refused at this point. -/
def submit (i : Nat) (w : CmdWord) (s : State) : Result :=
  match cmdOf w with
  | .error e => .refused (.malformedCommand e)
  | .ok _ =>
    if s.maySubmit i then .next (s.setArb { s.arb with pending := mapPut i w s.arb.pending })
    else .fault .submitNotEnabled

/-- Take (R235): requester `i` reads its response, which leaves the block. -/
def take (i : Nat) (s : State) : Result :=
  match mapGet i s.arb.resp with
  | none   => .fault .takeNotEnabled
  | some _ => .next (s.setArb { s.arb with resp := mapDel i s.arb.resp })

/-- Grant (R234). -/
def grant (i : Nat) (s : State) : Result :=
  match s.seq.phase, mapGet i s.arb.pending with
  | .idle, some w =>
    match cmdOf w with
    | .error e => .refused (.malformedCommand e)
    | .ok c    => .next ((s.setArb { s.arb with pending := mapDel i s.arb.pending }).setSeq (s.seq.load i c w))
  | .idle, none => .fault .grantNotEnabled
  | .busy, _    => .fault .grantNotEnabled

end Sys2Proof.Machine
end

