-- ==== Sys2Proof/Machine/RegisterOps.lean ====
section
/-! DEFINITION. The 20 register operations, device side (40_register_ops R130 to R149). -/

namespace Sys2Proof.Machine

/-- RD_RBR (R130): the destructive read of RX; a free byte while RXQ is empty. -/
def execRdRbr (s : State) : Result :=
  selectedUnder false s
    (match s.dev.rxq with
     | v :: q => readDone offRxTx v { s.dev with rxq := q } s
     | []     => readDraw offRxTx Config.emptyRxByte s)

/-- WR_THR (R131): appends; at a full queue one of two outcomes, chosen freely. -/
def execWrThr (b : Byte) (s : State) : Result :=
  selectedUnder false s
    (if s.dev.txq.length < s.dev.cap s.par then
       writeDone offRxTx b { s.dev with txq := s.dev.txq ++ [b] } s
     else
       writeDone offRxTx b
         { s.dev with txq := if Config.fullTxLosesNew s.draws then s.dev.txq else replaceLast s.dev.txq b } s.advance)

/-- RD_DLL (R132). -/
def execRdDll (s : State) : Result := selectedUnder true s (readDone offDll s.dev.dll s.dev s)

/-- WR_DLL (R133): the latch's low byte, and the divisor in use. -/
def execWrDll (b : Byte) (s : State) : Result :=
  selectedUnder true s (writeDone offDll b { s.dev with dll := b, baudActive := divisorOf s.dev.dlh b } s)

/-- RD_IER (R134). -/
def execRdIer (s : State) : Result := selectedUnder false s (readDone offIer s.dev.ier s.dev s)

/-- WR_IER (R135): refused if any of bits 7:3 is set. -/
def execWrIer (b : Byte) (s : State) : Result :=
  selectedUnder false s
    (if (Instr.wrIer b).wellFormed then writeDone offIer b { s.dev with ier := b } s else .refused .reservedIerBits)

/-- RD_DLH (R136). -/
def execRdDlh (s : State) : Result := selectedUnder true s (readDone offDlh s.dev.dlh s.dev s)

/-- WR_DLH (R137): the latch's high byte; the divisor in use only if DLH_WRITE_APPLIES. -/
def execWrDlh (b : Byte) (s : State) : Result :=
  selectedUnder true s
    (writeDone offDlh b
      { s.dev with dlh := b
                   baudActive := if s.par.dlhWriteApplies then divisorOf b s.dev.dll else s.dev.baudActive } s)

/-- RD_IIR (R138): a free byte. -/
def execRdIir (s : State) : Result := readDraw offFcr Config.iirByte s

/-- The device after WR_FCR of `b` (R139): a changed enable empties both queues, a pulse empties its own. -/
def Dev.writeFcr (d : Dev) (b : Byte) : Dev :=
  let flips := b.getLsbD 0 != d.fifoEn
  { d with
    rxq    := if flips || b.getLsbD 1 then [] else d.rxq
    txq    := if flips || b.getLsbD 2 then [] else d.txq
    fifoEn := b.getLsbD 0
    rxTrig := b.extractLsb' 6 2 }

/-- WR_FCR (R139): refused if any of bits 5:3 is set. -/
def execWrFcr (b : Byte) (s : State) : Result :=
  if (Instr.wrFcr b).wellFormed then writeDone offFcr b (s.dev.writeFcr b) s else .refused .reservedFcrBits

/-- RD_LCR (R140). -/
def execRdLcr (s : State) : Result := readDone offLcr s.dev.lcr s.dev s

/-- WR_LCR (R141): every byte is stored; bit 7 is the mode of the next operation. -/
def execWrLcr (b : Byte) (s : State) : Result := writeDone offLcr b { s.dev with lcr := b } s

/-- RD_MCR (R142): a free byte. -/
def execRdMcr (s : State) : Result := readDraw offMcr Config.mcrByte s

/-- WR_MCR (R143): refused. -/
def execWrMcr (_b : Byte) (_s : State) : Result := .refused .modemControlWrite

/-- RD_LSR (R144): bits 0 and 5 composed at this instant, the other six free. -/
def execRdLsr (s : State) : Result := readDraw offLsr (fun n => s.dev.lsr (Config.lsrReserved n)) s

/-- WR_LSR (R145): refused. -/
def execWrLsr (_b : Byte) (_s : State) : Result := .refused .lineStatusWrite

/-- RD_MSR (R146): a free byte. -/
def execRdMsr (s : State) : Result := readDraw offMsr Config.msrByte s

/-- WR_MSR (R147): refused. -/
def execWrMsr (_b : Byte) (_s : State) : Result := .refused .modemStatusWrite

/-- RD_7 (R148): refused. -/
def execRd7 (_s : State) : Result := .refused .offset7Read

/-- WR_7 (R149): refused. -/
def execWr7 (_b : Byte) (_s : State) : Result := .refused .offset7Write

end Sys2Proof.Machine
end

