-- ==== Sys2Proof/Machine/Port.lean ====
section
/-! DEFINITION. The register port (20_memory R60): a bus word is decoded under the mode before the operation and performed as the
register operation selected (40_register_ops R150). -/

namespace Sys2Proof.Machine

/-- The meaning of a register operation; a command is none and does not reach the port. -/
def execRegister (i : Instr) (s : State) : Result :=
  match i with
  | .rdRbr   => execRdRbr s
  | .wrThr b => execWrThr b s
  | .rdDll   => execRdDll s
  | .wrDll b => execWrDll b s
  | .rdIer   => execRdIer s
  | .wrIer b => execWrIer b s
  | .rdDlh   => execRdDlh s
  | .wrDlh b => execWrDlh b s
  | .rdIir   => execRdIir s
  | .wrFcr b => execWrFcr b s
  | .rdLcr   => execRdLcr s
  | .wrLcr b => execWrLcr b s
  | .rdMcr   => execRdMcr s
  | .wrMcr b => execWrMcr b s
  | .rdLsr   => execRdLsr s
  | .wrLsr b => execWrLsr b s
  | .rdMsr   => execRdMsr s
  | .wrMsr b => execWrMsr b s
  | .rd7     => execRd7 s
  | .wr7 b   => execWr7 b s
  | .configure _ _ | .setBaud _ | .sendByte _ | .tryReceive | .receiveByte | .pollStatus => .fault .notSelected

/-- The bus word `w` on the port (R91, R92, R150). -/
def portAccess (w : BusWord) (s : State) : Result := execRegister (decodeBus s.dev.dlab w) s

/-- RegRead(off): the byte returned stands in `rdata` (R60). -/
def regRead (off : Offset) (s : State) : Result := portAccess (busRead off) s

/-- RegWrite(off, b) (R60). -/
def regWrite (off : Offset) (b : Byte) (s : State) : Result := portAccess (busWrite off b) s

/-- A micro-step that writes: RegWrite, then `k`. -/
def writeStep (off : Offset) (b : Byte) (k : State → Result) (s : State) : Result := andThen (regWrite off b s) k

/-- A micro-step that reads: SEQ.t <- RegRead(off), then `k` (R36). -/
def readStep (off : Offset) (k : State → Result) (s : State) : Result := andThen (regRead off s) (fun s' => k (latchT s'))

end Sys2Proof.Machine
end

