-- ==== Sys2Proof/Machine/DivisorLatch.lean ====
section
/-! DEFINITION. The divisor-latch sequencer: ENTER_DA, EXIT_DA (41_divisor_latch R182, R183) and SET_BAUD (R184). -/

namespace Sys2Proof.Machine

/-- Step a of ENTER_DA and of EXIT_DA: SEQ.t <- RegRead(3) (R182, R183). -/
def readLcrStep (k : State → Result) (s : State) : Result := readStep offLcr k s

/-- Step b of ENTER_DA: RegWrite(3, SEQ.t | 0x80) (R182). -/
def enterDaStep (k : State → Result) (s : State) : Result := writeStep offLcr (setDlab s.seq.t) k s

/-- Step b of EXIT_DA: RegWrite(3, SEQ.t & 0x7F) (R183). -/
def exitDaStep (k : State → Result) (s : State) : Result := writeStep offLcr (clearDlab s.seq.t) k s

/-- One micro-step of SET_BAUD, B0 to B5 (R184). -/
def execSetBaud (d : Divisor) (s : State) : Result :=
  whileRunning (.setBaud d) s
    (match s.seq.step with
     | 0 => readLcrStep (goto 1) s
     | 1 => enterDaStep (goto 2) s
     | 2 => writeStep offDlh (divHi s.seq.d) (goto 3) s
     | 3 => writeStep offDll (divLo s.seq.d) (goto 4) s
     | 4 => readLcrStep (goto 5) s
     | 5 => exitDaStep (respond .done 0) s
     | _ => .fault .noSuchMicroStep)

end Sys2Proof.Machine
end

