-- ==== Sys2Proof/Machine/Configure.lean ====
section
/-! DEFINITION. The FIFO and line-control configurator: CONFIGURE (42_configure R203). -/

namespace Sys2Proof.Machine

/-- One micro-step of CONFIGURE, C0 to C6 (R203). -/
def execConfigure (p : BitVec 3) (d : Divisor) (s : State) : Result :=
  whileRunning (.configure p d) s
    (match s.seq.step with
     | 0 => writeStep offLcr (lcrByte true) (goto 1) s
     | 1 => writeStep offDlh (divHi s.seq.d) (goto 2) s
     | 2 => writeStep offDll (divLo s.seq.d) (goto 3) s
     | 3 => readLcrStep (goto 4) s
     | 4 => exitDaStep (goto 5) s
     | 5 => writeStep offFcr fcrConfig (goto 6) s
     | 6 => writeStep offIer (ierValue s.seq.p) (respond .done 0) s
     | _ => .fault .noSuchMicroStep)

end Sys2Proof.Machine
end

