-- ==== Sys2Proof/Machine/DataPath.lean ====
section
/-! DEFINITION. The data-path commands SEND_BYTE, TRY_RECEIVE, RECEIVE_BYTE and POLL_STATUS (43_tx_rx_status R220 to R223). -/

namespace Sys2Proof.Machine

/-- respond(DATA, SEQ.t). -/
def respondT (s : State) : Result := respond .data s.seq.t s

/-- One micro-step of SEND_BYTE, S0 or S1 (R220). -/
def execSendByte (b : Byte) (s : State) : Result :=
  whileRunning (.sendByte b) s
    (match s.seq.step with
     | 0 => readStep offLsr (fun s' => if (lineStatus s'.seq.t).txEmpty then goto 1 s' else pollFailed 0 s') s
     | 1 => writeStep offRxTx s.seq.b (respond .done 0) s
     | _ => .fault .noSuchMicroStep)

/-- One micro-step of TRY_RECEIVE, T0 or T1 (R221). -/
def execTryReceive (s : State) : Result :=
  whileRunning .tryReceive s
    (match s.seq.step with
     | 0 => readStep offLsr (fun s' => if (lineStatus s'.seq.t).dataReady then goto 1 s' else respond .noData 0 s') s
     | 1 => readStep offRxTx respondT s
     | _ => .fault .noSuchMicroStep)

/-- One micro-step of RECEIVE_BYTE, V0 or V1 (R222). -/
def execReceiveByte (s : State) : Result :=
  whileRunning .receiveByte s
    (match s.seq.step with
     | 0 => readStep offLsr (fun s' => if (lineStatus s'.seq.t).dataReady then goto 1 s' else pollFailed 0 s') s
     | 1 => readStep offRxTx respondT s
     | _ => .fault .noSuchMicroStep)

/-- The micro-step of POLL_STATUS, P0 (R223). -/
def execPollStatus (s : State) : Result :=
  whileRunning .pollStatus s
    (match s.seq.step with
     | 0 => readStep offLsr respondT s
     | _ => .fault .noSuchMicroStep)

end Sys2Proof.Machine
end

