-- ==== Sys2Proof/Machine/Dispatch.lean ====
section
/-! DEFINITION. One arm per instruction. -/

namespace Sys2Proof.Machine

def exec (i : Instr) (s : State) : Host.Outcome State Fault Refusal :=
  match i with
  | .rdRbr => Sys2Proof.Machine.execRdRbr s
  | .wrThr b => Sys2Proof.Machine.execWrThr b s
  | .rdDll => Sys2Proof.Machine.execRdDll s
  | .wrDll b => Sys2Proof.Machine.execWrDll b s
  | .rdIer => Sys2Proof.Machine.execRdIer s
  | .wrIer b => Sys2Proof.Machine.execWrIer b s
  | .rdDlh => Sys2Proof.Machine.execRdDlh s
  | .wrDlh b => Sys2Proof.Machine.execWrDlh b s
  | .rdIir => Sys2Proof.Machine.execRdIir s
  | .wrFcr b => Sys2Proof.Machine.execWrFcr b s
  | .rdLcr => Sys2Proof.Machine.execRdLcr s
  | .wrLcr b => Sys2Proof.Machine.execWrLcr b s
  | .rdMcr => Sys2Proof.Machine.execRdMcr s
  | .wrMcr b => Sys2Proof.Machine.execWrMcr b s
  | .rdLsr => Sys2Proof.Machine.execRdLsr s
  | .wrLsr b => Sys2Proof.Machine.execWrLsr b s
  | .rdMsr => Sys2Proof.Machine.execRdMsr s
  | .wrMsr b => Sys2Proof.Machine.execWrMsr b s
  | .rd7 => Sys2Proof.Machine.execRd7 s
  | .wr7 b => Sys2Proof.Machine.execWr7 b s
  | .configure p d => Sys2Proof.Machine.execConfigure p d s
  | .setBaud d => Sys2Proof.Machine.execSetBaud d s
  | .sendByte b => Sys2Proof.Machine.execSendByte b s
  | .tryReceive => Sys2Proof.Machine.execTryReceive s
  | .receiveByte => Sys2Proof.Machine.execReceiveByte s
  | .pollStatus => Sys2Proof.Machine.execPollStatus s

end Sys2Proof.Machine
end

