-- ==== Sys2Proof/Machine/LineAgent.lean ====
section
/-! DEFINITION. The line agent's actions (44_line_agent R250 to R252). -/

namespace Sys2Proof.Machine

/-- RXARRIVE(b) (R250). -/
def rxArrive (b : Byte) (s : State) : Result :=
  if s.dev.rxq.length < s.dev.cap s.par then .next (s.setDev { s.dev with rxq := s.dev.rxq ++ [b] })
  else .fault .rxArriveNotEnabled

/-- RXOVERRUN(b) (R251): one of two outcomes, chosen freely. -/
def rxOverrun (b : Byte) (s : State) : Result :=
  if s.dev.rxq.length = s.dev.cap s.par then
    .next (s.advance.setDev
      { s.dev with rxq := if Config.overrunLosesNew s.draws then s.dev.rxq else replaceLast s.dev.rxq b })
  else .fault .rxOverrunNotEnabled

/-- TXDRAIN (R252). -/
def txDrain (s : State) : Result :=
  match s.dev.txq with
  | []     => .fault .txDrainNotEnabled
  | b :: q => .next ((s.logTx b).setDev { s.dev with txq := q })

end Sys2Proof.Machine
end

