-- ==== Sys2Proof/Machine/Agents.lean ====
section
/-! DEFINITION. One turn of the machine: whose turn it is and what that agent does (00_scope R6, 20_memory R73), and the placing of
a word where the next turn runs it. -/

namespace Sys2Proof.Machine

/-- The sequencer's turn: the next micro-step of the running command (R228). -/
def microStep (s : State) : Result :=
  match s.seq.phase with
  | .busy => exec s.seq.instr s
  | .idle => .fault .microStepNotEnabled

/-- A bus word on the register port: the instruction is decoded under the mode before it (R150). -/
def busTurn (w : BusWord) (s : State) : Result := exec (decodeBus s.dev.dlab w) s

/-- The turn the schedule names. -/
def act (a : Action) (s : State) : Result :=
  match a with
  | .submit i w  => submit i w s
  | .take i      => take i s
  | .grant i     => grant i s
  | .microStep   => microStep s
  | .rxArrive b  => rxArrive b s
  | .rxOverrun b => rxOverrun b s
  | .txDrain     => txDrain s
  | .raw w       => busTurn w s
  | .access dir addr b =>
    match windowOffset addr, dir with
    | none, _          => .fault .addressOutsideWindow
    | some off, .read  => busTurn (busRead off) s
    | some off, .write => busTurn (busWrite off b) s
  | .reset       => .next (takeReset s)

/-- The requester that the arbiter picks by itself among the pending ones `e :: m`, a free choice (R234). -/
def pickPending (e : Nat × CmdWord) (m : List (Nat × CmdWord)) (n : Nat) : Nat :=
  ((e :: m).getD (Config.grantChoice n % (e :: m).length) e).1

/-- The turn when the schedule is empty: the running command goes on, else a pending one is granted, else the block is simply
idle and nothing happens (R285, R301; log 9). -/
def ownTurn (s : State) : Result :=
  match s.seq.phase, s.arb.pending with
  | .busy, _      => microStep s
  | .idle, []     => .next s
  | .idle, e :: m => grant (pickPending e m s.draws) s

/-- The state in which a turn is taken: the action is off the schedule and the free values are fresh. -/
def beginTurn (s : State) : State := s.advance.setSchedule s.schedule.tail

/-- One turn. -/
def turn (s : State) : Result :=
  match s.schedule with
  | []     => ownTurn (beginTurn s)
  | a :: _ => act a (beginTurn s)

/-- The machine with the word placed where the next turn runs it (log 13): a bus word as the next action at the port, a command
as granted to requester 0 with its first micro-step next, a word that is no command as a submission. -/
def placeWord (s : State) (nbits w : Nat) : State :=
  if nbits ≤ 16 then s.setSchedule (.raw (BitVec.ofNat 12 w) :: s.schedule)
  else
    match cmdOf (BitVec.ofNat 32 w) with
    | .ok c    => (s.setSeq (s.seq.load 0 c (BitVec.ofNat 32 w))).setSchedule (.microStep :: s.schedule)
    | .error _ => s.setSchedule (.submit 0 (BitVec.ofNat 32 w) :: s.schedule)

end Sys2Proof.Machine
end

