-- ==== Sys2Proof/Safety.lean ====
section
/-! DEFINITION. What counts as a safe run, in the terms the claims use: the invariants of 10_state R40 and of the arbiter, the mode
discipline and the gates of the sequencer (41_divisor_latch R187, 43_tx_rx_status R225, R226), sole ownership of the port
(20_memory R76), and several micro-steps in a row. -/

namespace Sys2Proof.Machine

/-- The last micro-step of a command's microprogram (R228). -/
def lastStep : Cmd → Nat
  | .configure   => 6
  | .setBaud     => 5
  | .sendByte    => 1
  | .tryReceive  => 1
  | .receiveByte => 1
  | .pollStatus  => 0

/-- Every pending word is a command of an existing requester (R44, R106). -/
abbrev PendingOk (s : State) : Prop :=
  MapWf s.arb.pending ∧ ∀ e ∈ s.arb.pending, e.1 < s.par.nReq ∧ CmdWord.wellFormed e.2 = true

/-- Every response is one that R112 allows, for an existing requester (R44, R112). -/
abbrev RespOk (s : State) : Prop :=
  MapWf s.arb.resp ∧ ∀ e ∈ s.arb.resp, e.1 < s.par.nReq ∧ Response.wellFormed e.2 = true

/-- At most one command outstanding per requester: pending, running and answered exclude one another (R232). -/
abbrev OneOutstanding (s : State) : Prop :=
  (∀ e ∈ s.arb.pending, mapGet e.1 s.arb.resp = none ∧ s.isRunningFor e.1 = false) ∧
  (∀ e ∈ s.arb.resp, s.isRunningFor e.1 = false)

/-- What every step keeps, whoever drives the port: capacities and IER (R40 (a), (b)), the arbiter's maps, and the range of
SEQ.step and SEQ.req while busy (R34, R47). -/
structure Inv (s : State) : Prop where
  params    : s.par.wellFormed = true
  rxFits    : s.dev.rxq.length ≤ s.dev.cap s.par
  txFits    : s.dev.txq.length ≤ s.dev.cap s.par
  ierLegal  : s.dev.ier &&& 0xF8 = 0
  stepRange : s.seq.phase = .busy → s.seq.step ≤ lastStep s.seq.cmd ∧ s.seq.req < s.par.nReq
  pending   : PendingOk s
  resp      : RespOk s
  single    : OneOutstanding s

/-- No turn to come drives the register port from outside the sequencer (R76). -/
def soleOwner (l : List Action) : Bool :=
  l.all (fun a => match a with
    | .raw _ | .access _ _ _ => false
    | .submit _ _ | .take _ | .grant _ | .microStep | .rxArrive _ | .rxOverrun _ | .txDrain | .reset => true)

/-- LCR bit 7 as the sequencer's position fixes it: set from after B1 until B5 and from after C0 until C4, clear otherwise
(R40 (d), R184, R187, R203). -/
def Seq.expectedDlab (q : Seq) : Bool :=
  match q.phase, q.cmd with
  | .busy, .setBaud   => 2 ≤ q.step && q.step ≤ 5
  | .busy, .configure => 1 ≤ q.step && q.step ≤ 4
  | .busy, .sendByte | .busy, .tryReceive | .busy, .receiveByte | .busy, .pollStatus | .idle, _ => false

/-- The sequencer's discipline, which holds under sole ownership: the access mode (R40 (d), R187), the byte a read-modify-write of
LCR is about to modify (R182, R183), what CONFIGURE has made of LCR (R204), and the two gates (R225, R226). -/
structure Discipline (s : State) : Prop where
  resetNormal : s.par.resetImage.lcr.getLsbD 7 = false
  mode        : s.dev.dlab = s.seq.expectedDlab
  lcrRead     : s.seq.phase = .busy → s.seq.cmd = .setBaud → s.seq.step = 1 ∨ s.seq.step = 5 → s.seq.t = s.dev.lcr
  lcrRead4    : s.seq.phase = .busy → s.seq.cmd = .configure → s.seq.step = 4 → s.seq.t = s.dev.lcr
  lcrOpen     : s.seq.phase = .busy → s.seq.cmd = .configure → 1 ≤ s.seq.step → s.seq.step ≤ 4 → s.dev.lcr = 0x83
  lcrClosed   : s.seq.phase = .busy → s.seq.cmd = .configure → 5 ≤ s.seq.step → s.seq.step ≤ 6 → s.dev.lcr = 0x03
  txGate      : s.seq.phase = .busy → s.seq.cmd = .sendByte → s.seq.step = 1 → s.dev.txq = []
  rxGate      : s.seq.phase = .busy → s.seq.cmd = .tryReceive ∨ s.seq.cmd = .receiveByte → s.seq.step = 1 → s.dev.rxq ≠ []

/-- The sequencer is running `i`, about to perform micro-step `k`. -/
def State.atStep (s : State) (i : Instr) (k : Nat) : Prop :=
  s.seq.phase = .busy ∧ s.seq.instr = i ∧ s.seq.step = k

/-- A polling command whose condition does not hold: SEND_BYTE with TXQ not empty, RECEIVE_BYTE with RXQ empty. -/
def pollsInVain (i : Instr) (d : Dev) : Prop :=
  (∃ b, i = .sendByte b ∧ d.txq ≠ []) ∨ (i = .receiveByte ∧ d.rxq = [])

/-- `n` micro-steps of `i` in a row, no other agent stepping in between. -/
def execTimes : Nat → Instr → State → Result
  | 0,     _, s => .next s
  | n + 1, i, s => andThen (exec i s) (execTimes n i)

/-- What a read at `off` that returned `v` leaves besides the device: the port's answer and the TRACE entry (R62, R151). -/
def State.withRead (s : State) (off : Offset) (v : Byte) : State :=
  { s with rdata := v, ghost := { s.ghost with trace := s.ghost.trace ++ [⟨.read, off, v, s.dev.mode⟩] } }

/-- What a write of `b` at `off` leaves besides the device: the TRACE entry (R151). -/
def State.withWrite (s : State) (off : Offset) (b : Byte) : State :=
  { s with ghost := { s.ghost with trace := s.ghost.trace ++ [⟨.write, off, b, s.dev.mode⟩] } }

/-- The same state with another history: GHOST, which no rule reads (R38). -/
def State.setGhost (s : State) (g : Ghost) : State := { s with ghost := g }

end Sys2Proof.Machine
end

