-- ==== Sys2Proof/Certificates/Slice0/Obligations.lean ====
section
/-! DEFINITION. The statements for the provers. R<n> are the numbered rules of spec/, D<n> the rows of 92_eei_decisions.md, log <n>
the files of notes/assumptions. A statement about a free value holds for every value of it. -/

open Sys2Proof Sys2Proof.Machine Host.Outcome

/-! ### Encodings -/

/-- Sanity: words written out from R91, R104 and R105 decode to the instructions they stand for. -/
def Obligations.SpecWordsDecode : Prop :=
  decode false (.bus 0x000) = .ok .rdRbr ∧
  decode true  (.bus 0x000) = .ok .rdDll ∧
  decode false (.bus 0x869) = .ok (.wrThr 0x69) ∧
  decode true  (.bus 0x8A1) = .ok (.wrDll 0xA1) ∧
  decode true  (.bus 0x901) = .ok (.wrDlh 0x01) ∧
  decode false (.bus 0xAC7) = .ok (.wrFcr 0xC7) ∧
  decode true  (.bus 0xB83) = .ok (.wrLcr 0x83) ∧
  decode false (.bus 0x500) = .ok .rdLsr ∧
  decode false (.cmd 0x007D01A1) = .ok (.configure 0b101 0x01A1) ∧
  decode false (.cmd 0x100001A1) = .ok (.setBaud 0x01A1) ∧
  decode false (.cmd 0x20000048) = .ok (.sendByte 0x48) ∧
  decode false (.cmd 0x30000000) = .ok .tryReceive ∧
  decode false (.cmd 0x20000148) = .error .mustBeZero ∧
  decode false (.cmd 0x60000000) = .error .reservedOpcode

/-- For every instruction, at every operand, decoding its encoding gives it back, under any mode that selects it (R91, R92, R104,
R105). -/
def Obligations.DecodeEncodeAgree : Prop :=
  ∀ (i : Instr) (dlab : Bool), i.selectedBy = none ∨ i.selectedBy = some dlab → decode dlab (encode i) = .ok i

/-- What a word decodes to encodes back to the word, up to the ignored WDATA of a read (R91), and is selected by the mode it was
decoded under (R92). -/
def Obligations.EncodeDecodeCanonical : Prop :=
  ∀ (dlab : Bool) (w : InstrWord) (i : Instr), decode dlab w = .ok i →
    encode i = w.canonical ∧ (i.selectedBy = none ∨ i.selectedBy = some dlab)

/-- R106 (layout and fixed fields D2, D23): a word is a command exactly when it matches one row under its mask; any other word is refused at
submission. That it is refused whatever the state, of a requester that does not exist or may not submit too, is the model's choice: the
word is checked before the submission's own condition (log 27). -/
def Obligations.CommandWordsAreExactlyTheTableRows : Prop :=
  ∀ w : CmdWord,
    (CmdWord.wellFormed w = true ↔ ∃ i, decodeCmd w = .ok i) ∧
    (CmdWord.wellFormed w = false → ∀ (s : State) (i : Nat) (l : List Action), s.schedule = .submit i w :: l →
      ∃ e, step s = .refused (.malformedCommand e))

/-- R92 (bus word layout D3): the table of the offset decode, for every bus word. -/
def Obligations.OffsetDecodeTable : Prop :=
  ∀ (dlab : Bool) (w : BusWord),
    (BusWord.isWrite w = false →
      (BusWord.off w = 0 → decodeBus dlab w = if dlab then .rdDll else .rdRbr) ∧
      (BusWord.off w = 1 → decodeBus dlab w = if dlab then .rdDlh else .rdIer) ∧
      (BusWord.off w = 2 → decodeBus dlab w = .rdIir) ∧
      (BusWord.off w = 3 → decodeBus dlab w = .rdLcr) ∧
      (BusWord.off w = 4 → decodeBus dlab w = .rdMcr) ∧
      (BusWord.off w = 5 → decodeBus dlab w = .rdLsr) ∧
      (BusWord.off w = 6 → decodeBus dlab w = .rdMsr) ∧
      (BusWord.off w = 7 → decodeBus dlab w = .rd7)) ∧
    (BusWord.isWrite w = true →
      (BusWord.off w = 0 → decodeBus dlab w = if dlab then .wrDll (BusWord.wdata w) else .wrThr (BusWord.wdata w)) ∧
      (BusWord.off w = 1 → decodeBus dlab w = if dlab then .wrDlh (BusWord.wdata w) else .wrIer (BusWord.wdata w)) ∧
      (BusWord.off w = 2 → decodeBus dlab w = .wrFcr (BusWord.wdata w)) ∧
      (BusWord.off w = 3 → decodeBus dlab w = .wrLcr (BusWord.wdata w)) ∧
      (BusWord.off w = 4 → decodeBus dlab w = .wrMcr (BusWord.wdata w)) ∧
      (BusWord.off w = 5 → decodeBus dlab w = .wrLsr (BusWord.wdata w)) ∧
      (BusWord.off w = 6 → decodeBus dlab w = .wrMsr (BusWord.wdata w)) ∧
      (BusWord.off w = 7 → decodeBus dlab w = .wr7 (BusWord.wdata w)))

/-- The response codec of R112 and R113 (D30): every legal response survives, and every word that decodes encodes back. -/
def Obligations.ResponseWordsRoundTrip : Prop :=
  (∀ r : Response, r.wellFormed = true → decodeRsp (encodeRsp r) = some r) ∧
  (∀ (w : RspWord) (r : Response), decodeRsp w = some r → encodeRsp r = w ∧ r.wellFormed = true)

/-! ### Register operations: results, flags and frames -/

/-- R130: RD_RBR takes the oldest byte; while RXQ is empty it answers some byte, a free value, and RXQ stays empty (the spec's decision D13;
log 16). Nothing else changes. -/
def Obligations.ReadRxTakesOldestByte : Prop :=
  ∀ s : State, s.dev.dlab = false →
    decodeBus s.dev.dlab (busRead 0) = .rdRbr ∧
    (∀ v q, s.dev.rxq = v :: q →
      exec .rdRbr s = next { s.withRead 0 v with dev := { s.dev with rxq := q } }) ∧
    (s.dev.rxq = [] → ∃ v, exec .rdRbr s = next { s.withRead 0 v with draws := s.draws + 1 }) ∧
    (∀ t, exec .rdRbr s = next t → t.dev.dataReady = decide (2 ≤ s.dev.rxq.length))

/-- R131: WR_THR appends while there is room; at a full queue the new byte is lost or replaces the last one, a free choice (the spec's
decision D13; log 17). Nothing else changes. -/
def Obligations.WriteTxAppends : Prop :=
  ∀ (s : State) (b : Byte), s.dev.dlab = false →
    decodeBus s.dev.dlab (busWrite 0 b) = .wrThr b ∧
    (s.dev.txq.length < s.dev.cap s.par →
      exec (.wrThr b) s = next { s.withWrite 0 b with dev := { s.dev with txq := s.dev.txq ++ [b] } }) ∧
    (s.dev.cap s.par ≤ s.dev.txq.length → ∃ q, (q = s.dev.txq ∨ q = s.dev.txq.dropLast ++ [b]) ∧
      exec (.wrThr b) s = next { s.withWrite 0 b with dev := { s.dev with txq := q }, draws := s.draws + 1 }) ∧
    (0 < s.dev.cap s.par → ∀ t, exec (.wrThr b) s = next t → t.dev.txEmpty = false)

/-- R132, R136 (D16): the divisor latch is read back in DivisorAccess; nothing else changes (RXQ and IER are not touched). -/
def Obligations.DivisorLatchReads : Prop :=
  ∀ s : State, s.dev.dlab = true →
    decodeBus s.dev.dlab (busRead 0) = .rdDll ∧ decodeBus s.dev.dlab (busRead 1) = .rdDlh ∧
    exec .rdDll s = next (s.withRead 0 s.dev.dll) ∧
    exec .rdDlh s = next (s.withRead 1 s.dev.dlh)

/-- R133: WR_DLL stores the low byte and applies {DLH, b}, the 16-bit number 256 * DLH + b. -/
def Obligations.WriteDllAppliesDivisor : Prop :=
  ∀ (s : State) (b : Byte), s.dev.dlab = true →
    decodeBus s.dev.dlab (busWrite 0 b) = .wrDll b ∧
    ∃ a : Divisor, a.toNat = 256 * s.dev.dlh.toNat + b.toNat ∧
      exec (.wrDll b) s = next { s.withWrite 0 b with dev := { s.dev with dll := b, baudActive := a } }

/-- R137: WR_DLH stores the high byte; the divisor in use changes only if DLH_WRITE_APPLIES (the spec's decision D15); IER does
not. -/
def Obligations.WriteDlhFillsLatch : Prop :=
  ∀ (s : State) (b : Byte), s.dev.dlab = true →
    decodeBus s.dev.dlab (busWrite 1 b) = .wrDlh b ∧
    (s.par.dlhWriteApplies = false →
      exec (.wrDlh b) s = next { s.withWrite 1 b with dev := { s.dev with dlh := b } }) ∧
    (s.par.dlhWriteApplies = true → ∃ a : Divisor, a.toNat = 256 * b.toNat + s.dev.dll.toNat ∧
      exec (.wrDlh b) s = next { s.withWrite 1 b with dev := { s.dev with dlh := b, baudActive := a } })

/-- R134: RD_IER answers IER, whose bits 7:3 are 0 in every state of a run. -/
def Obligations.ReadIerAnswersIer : Prop :=
  ∀ s : State, s.dev.dlab = false →
    decodeBus s.dev.dlab (busRead 1) = .rdIer ∧
    exec .rdIer s = next (s.withRead 1 s.dev.ier) ∧
    (Inv s → ∀ t, exec .rdIer s = next t → t.rdata.toNat < 8)

/-- R135: WR_IER stores a byte whose bits 7:3 are 0 and is refused otherwise (the spec's decision D9; log 19); irq_o follows at
once, and is 0 after 0x00. -/
def Obligations.WriteIerStoresEnables : Prop :=
  ∀ (s : State) (b : Byte), s.dev.dlab = false →
    decodeBus s.dev.dlab (busWrite 1 b) = .wrIer b ∧
    (b.toNat < 8 → exec (.wrIer b) s = next { s.withWrite 1 b with dev := { s.dev with ier := b } }) ∧
    (8 ≤ b.toNat → exec (.wrIer b) s = refused .reservedIerBits) ∧
    (∀ t, exec (.wrIer 0) s = next t → t.irqO = false)

/-- R138, R142, R146 (D18, D19): reads of IIR, MCR and MSR complete in either mode with some byte and change no device state. -/
def Obligations.UnmodelledReadsComplete : Prop :=
  ∀ s : State,
    (∃ v, exec .rdIir s = next { s.withRead 2 v with draws := s.draws + 1 }) ∧
    (∃ v, exec .rdMcr s = next { s.withRead 4 v with draws := s.draws + 1 }) ∧
    (∃ v, exec .rdMsr s = next { s.withRead 6 v with draws := s.draws + 1 })

/-- R139: WR_FCR with bits 5:3 clear: a changed enable empties both queues, a pulse its own, enable and trigger persist and the pulses
do not; with one of bits 5:3 set it is refused. The emptying on a changed enable is general knowledge GK2 that the spec takes as its
decision D10 (log 25, PRESUMED, unsafe); the refusal is D10 too (log 19). -/
def Obligations.WriteFcrControlsFifo : Prop :=
  ∀ (s : State) (b : Byte),
    decodeBus s.dev.dlab (busWrite 2 b) = .wrFcr b ∧
    (b.extractLsb' 3 3 ≠ 0 → exec (.wrFcr b) s = refused .reservedFcrBits) ∧
    (b.extractLsb' 3 3 = 0 → ∃ d : Dev, exec (.wrFcr b) s = next { s.withWrite 2 b with dev := d } ∧
      d = { s.dev with
              rxq := if b.getLsbD 0 ≠ s.dev.fifoEn ∨ b.getLsbD 1 = true then [] else s.dev.rxq
              txq := if b.getLsbD 0 ≠ s.dev.fifoEn ∨ b.getLsbD 2 = true then [] else s.dev.txq
              fifoEn := b.getLsbD 0
              rxTrig := b.extractLsb' 6 2 } ∧
      d.fcrShadow = b &&& 0xC1 ∧
      (b.getLsbD 1 = true → d.dataReady = false) ∧ (b.getLsbD 2 = true → d.txEmpty = true))

/-- R140: RD_LCR answers all eight bits as last written, in either mode. -/
def Obligations.ReadLcrAnswersLcr : Prop :=
  ∀ (s : State),
    decodeBus s.dev.dlab (busRead 3) = .rdLcr ∧
    exec .rdLcr s = next (s.withRead 3 s.dev.lcr) ∧
    (∀ b t, exec (.wrLcr b) s = next t → ∃ u, exec .rdLcr t = next u ∧ u.rdata = b)

/-- R141: WR_LCR stores every byte (the spec's decision D8), in either mode, and changes nothing else; bit 7 is the mode of what follows; no
other register operation changes LCR. -/
def Obligations.WriteLcrSetsMode : Prop :=
  (∀ (s : State) (b : Byte),
    decodeBus s.dev.dlab (busWrite 3 b) = .wrLcr b ∧
    exec (.wrLcr b) s = next { s.withWrite 3 b with dev := { s.dev with lcr := b } } ∧
    (∀ t, exec (.wrLcr b) s = next t → t.dev.mode = if b.getLsbD 7 then .divisorAccess else .normal)) ∧
  (∀ (s t : State) (w : BusWord), exec (decodeBus s.dev.dlab w) s = next t → t.dev.lcr ≠ s.dev.lcr →
    decodeBus s.dev.dlab w = .wrLcr t.dev.lcr)

/-- R144: RD_LSR answers a byte whose bit 0 is data-ready and bit 5 tx-empty at that instant, whatever the six other bits are, in either
mode, and changes no device state. The two equations are the spec's decisions D12 and D34 (R29), that the read changes nothing is D12, and
the six bits are free values (D12; log 16). -/
def Obligations.ReadLsrComposesStatus : Prop :=
  ∀ s : State,
    decodeBus s.dev.dlab (busRead 5) = .rdLsr ∧
    ∃ v : Byte, exec .rdLsr s = next { s.withRead 5 v with draws := s.draws + 1 } ∧
      (v.getLsbD 0 = true ↔ 1 ≤ s.dev.rxq.length) ∧ (v.getLsbD 5 = true ↔ s.dev.txq.length = 0)

/-- R143, R145, R147, R148, R149 (D4, D19): the five operations with no meaning are refused, whatever the state and the byte. -/
def Obligations.OperationsWithoutMeaningAreRefused : Prop :=
  ∀ (s : State) (b : Byte),
    exec (.wrMcr b) s = refused .modemControlWrite ∧
    exec (.wrLsr b) s = refused .lineStatusWrite ∧
    exec (.wrMsr b) s = refused .modemStatusWrite ∧
    exec .rd7 s = refused .offset7Read ∧
    exec (.wr7 b) s = refused .offset7Write

/-- The model's choice for an operation asked for in the mode that does not select it, which no bus word can ask for (log 11, from
R92): exec stops. -/
def Obligations.UnselectedOperationStops : Prop :=
  ∀ (i : Instr) (s : State) (m : Bool), i.selectedBy = some m → s.dev.dlab ≠ m → exec i s = fault .notSelected

/-- R151: an operation that a bus word performs appends exactly one entry, with the byte written or returned and the mode before the
operation. -/
def Obligations.EveryOperationIsRecorded : Prop :=
  ∀ (s t : State) (w : BusWord), exec (decodeBus s.dev.dlab w) s = next t →
    t.ghost.trace = s.ghost.trace ++
      [⟨if BusWord.isWrite w then .write else .read, BusWord.off w, if BusWord.isWrite w then BusWord.wdata w else t.rdata, s.dev.mode⟩]

/-! ### A step runs the decoded instruction -/

/-- R150: a bus word is decoded under the mode before the operation and performed in one step, raw or from a micro-step. -/
def Obligations.StepRunsBusWord : Prop :=
  (∀ (s : State) (w : BusWord) (l : List Action), s.schedule = .raw w :: l →
    step s = exec (decodeBus s.dev.dlab w) { s with schedule := l, draws := s.draws + 1 }) ∧
  (∀ (s : State) (off : Offset), regRead off s = exec (decodeBus s.dev.dlab (busRead off)) s) ∧
  (∀ (s : State) (off : Offset) (b : Byte), regWrite off b s = exec (decodeBus s.dev.dlab (busWrite off b)) s)

/-- A step of the sequencer is exec of the running command with its latched operands (R34, R35, R228), the turn being off the schedule
and one index of free values used up (log 6, log 7). -/
def Obligations.StepRunsRunningCommand : Prop :=
  ∀ s : State, s.seq.phase = .busy → (s.schedule = [] ∨ ∃ l, s.schedule = .microStep :: l) →
    step s = exec (s.seq.cmd.instr s.seq.d s.seq.p s.seq.b) { s with schedule := s.schedule.tail, draws := s.draws + 1 }

/-- The model's loading of a word (log 12, log 13): the very next step runs the instruction the word decodes to. -/
def Obligations.PlacedWordRunsNext : Prop :=
  ∀ (s : State) (nbits w : Nat) (i : Instr), s.dev.dlab = false → decodeTableWord nbits w = some i →
    step (s.withFetchWord nbits w) = exec i (beginTurn (s.withFetchWord nbits w)) ∧
    (s.withFetchWord nbits w).dev = s.dev

/-- A block with nothing running, nothing pending and no input does nothing (R285, R301; log 9): only the model's counter moves. -/
def Obligations.QuietBlockStaysIdle : Prop :=
  ∀ s : State, s.seq.phase = .idle → s.arb.pending = [] → s.schedule = [] → step s = next { s with draws := s.draws + 1 }

/-- R67 with the model's treatment of an address outside the window (log 2): UART_BASE + off reaches register off, nothing else does. -/
def Obligations.WindowAddressesReachRegisters : Prop :=
  ∀ (s : State) (dir : Dir) (addr : Nat) (b : Byte) (l : List Action), s.schedule = .access dir addr b :: l →
    (∀ off : Offset, addr = Config.uartBase + off.toNat →
      step s = exec (decodeBus s.dev.dlab (match dir with | .read => busRead off | .write => busWrite off b))
        { s with schedule := l, draws := s.draws + 1 }) ∧
    (addr < Config.uartBase ∨ Config.uartBase + 8 ≤ addr → step s = fault .addressOutsideWindow)

/-! ### Commands -/

/-- R184, one micro-step at a time: what B0 to B5 do to the state, and the response at the end. -/
def Obligations.SetBaudMicroSteps : Prop :=
  ∀ (s : State) (d : Divisor),
    (s.atStep (.setBaud d) 0 →
      exec (.setBaud d) s = next { s.withRead 3 s.dev.lcr with seq := { s.seq with step := 1, t := s.dev.lcr } }) ∧
    (s.atStep (.setBaud d) 1 →
      exec (.setBaud d) s = next { s.withWrite 3 (s.seq.t ||| 0x80) with
        dev := { s.dev with lcr := s.seq.t ||| 0x80 }, seq := { s.seq with step := 2 } }) ∧
    (s.atStep (.setBaud d) 2 → s.dev.dlab = true →
      exec (.setBaud d) s = next { s.withWrite 1 (divHi d) with
        dev := { s.dev with dlh := divHi d
                            baudActive := if s.par.dlhWriteApplies then divisorOf (divHi d) s.dev.dll else s.dev.baudActive }
        seq := { s.seq with step := 3 } }) ∧
    (s.atStep (.setBaud d) 3 → s.dev.dlab = true →
      exec (.setBaud d) s = next { s.withWrite 0 (divLo d) with
        dev := { s.dev with dll := divLo d, baudActive := divisorOf s.dev.dlh (divLo d) }
        seq := { s.seq with step := 4 } }) ∧
    (s.atStep (.setBaud d) 4 →
      exec (.setBaud d) s = next { s.withRead 3 s.dev.lcr with seq := { s.seq with step := 5, t := s.dev.lcr } }) ∧
    (s.atStep (.setBaud d) 5 →
      exec (.setBaud d) s = next { s.withWrite 3 (s.seq.t &&& 0x7F) with
        dev := { s.dev with lcr := s.seq.t &&& 0x7F }
        seq := { s.seq with phase := .idle }
        arb := { s.arb with resp := mapPut s.seq.req ⟨.done, 0x00⟩ s.arb.resp } })

/-- R186 and R184 for a whole SET_BAUD from its grant, whatever the mode then: six operations in the order of R184, the response DONE, DLH
and DLL hold D, D is in use, LCR bit 7 is clear and its other bits, IER, the FIFO settings and the queues are as they were. -/
def Obligations.SetBaudCompletes : Prop :=
  ∀ (s : State) (d : Divisor), s.atStep (.setBaud d) 0 → ∃ t : State,
    execTimes 6 (.setBaud d) s = next t ∧
    t.dev = { s.dev with lcr := s.dev.lcr &&& 0x7F, dlh := divHi d, dll := divLo d, baudActive := d } ∧
    t.seq.phase = .idle ∧
    t.arb = { s.arb with resp := mapPut s.seq.req ⟨.done, 0x00⟩ s.arb.resp } ∧
    t.ghost = { s.ghost with trace := s.ghost.trace ++
      [⟨.read, 3, s.dev.lcr, s.dev.mode⟩, ⟨.write, 3, s.dev.lcr ||| 0x80, s.dev.mode⟩,
       ⟨.write, 1, divHi d, .divisorAccess⟩, ⟨.write, 0, divLo d, .divisorAccess⟩,
       ⟨.read, 3, s.dev.lcr ||| 0x80, .divisorAccess⟩, ⟨.write, 3, s.dev.lcr &&& 0x7F, .divisorAccess⟩] } ∧
    t.par = s.par ∧ t.draws = s.draws ∧ t.schedule = s.schedule

/-- R182, R183: ENTER_DA sets LCR bit 7 and EXIT_DA clears it, each by one read and one write of LCR, and both keep LCR[6:0]; entered
in DivisorAccess already, ENTER_DA rewrites the same value. -/
def Obligations.EnterAndExitKeepOtherLcrBits : Prop :=
  ∀ (s : State) (d : Divisor),
    (s.atStep (.setBaud d) 0 → ∃ t, execTimes 2 (.setBaud d) s = next t ∧
      t.dev = { s.dev with lcr := t.dev.lcr } ∧ t.dev.lcr.getLsbD 7 = true ∧
      (∀ k < 7, t.dev.lcr.getLsbD k = s.dev.lcr.getLsbD k) ∧
      t.ghost.trace = s.ghost.trace ++ [⟨.read, 3, s.dev.lcr, s.dev.mode⟩, ⟨.write, 3, t.dev.lcr, s.dev.mode⟩]) ∧
    (s.atStep (.setBaud d) 4 → ∃ t, execTimes 2 (.setBaud d) s = next t ∧
      t.dev = { s.dev with lcr := t.dev.lcr } ∧ t.dev.lcr.getLsbD 7 = false ∧
      (∀ k < 7, t.dev.lcr.getLsbD k = s.dev.lcr.getLsbD k) ∧
      t.ghost.trace = s.ghost.trace ++ [⟨.read, 3, s.dev.lcr, s.dev.mode⟩, ⟨.write, 3, t.dev.lcr, s.dev.mode⟩])

/-- R203, one micro-step at a time: what C0 to C6 do to the state, and the response at the end. -/
def Obligations.ConfigureMicroSteps : Prop :=
  ∀ (s : State) (p : BitVec 3) (d : Divisor),
    (s.atStep (.configure p d) 0 →
      exec (.configure p d) s = next { s.withWrite 3 0x83 with
        dev := { s.dev with lcr := 0x83 }, seq := { s.seq with step := 1 } }) ∧
    (s.atStep (.configure p d) 1 → s.dev.dlab = true →
      exec (.configure p d) s = next { s.withWrite 1 (divHi d) with
        dev := { s.dev with dlh := divHi d
                            baudActive := if s.par.dlhWriteApplies then divisorOf (divHi d) s.dev.dll else s.dev.baudActive }
        seq := { s.seq with step := 2 } }) ∧
    (s.atStep (.configure p d) 2 → s.dev.dlab = true →
      exec (.configure p d) s = next { s.withWrite 0 (divLo d) with
        dev := { s.dev with dll := divLo d, baudActive := divisorOf s.dev.dlh (divLo d) }
        seq := { s.seq with step := 3 } }) ∧
    (s.atStep (.configure p d) 3 →
      exec (.configure p d) s = next { s.withRead 3 s.dev.lcr with seq := { s.seq with step := 4, t := s.dev.lcr } }) ∧
    (s.atStep (.configure p d) 4 →
      exec (.configure p d) s = next { s.withWrite 3 (s.seq.t &&& 0x7F) with
        dev := { s.dev with lcr := s.seq.t &&& 0x7F }, seq := { s.seq with step := 5 } }) ∧
    (s.atStep (.configure p d) 5 →
      exec (.configure p d) s = next { s.withWrite 2 0xC7 with
        dev := { s.dev with fifoEn := true, rxTrig := 0b11, rxq := [], txq := [] }, seq := { s.seq with step := 6 } }) ∧
    (s.atStep (.configure p d) 6 → s.dev.dlab = false →
      exec (.configure p d) s = next { s.withWrite 1 (p.zeroExtend 8) with
        dev := { s.dev with ier := p.zeroExtend 8 }
        seq := { s.seq with phase := .idle }
        arb := { s.arb with resp := mapPut s.seq.req ⟨.done, 0x00⟩ s.arb.resp } })

/-- R205, R206, R208 and R203 for a whole CONFIGURE from its grant, whatever the device state and mode then: the device ends in one state
that depends on D and P alone, after seven operations in the order of R203, one of them on FCR, and the response DONE. -/
def Obligations.ConfigureCompletes : Prop :=
  ∀ (s : State) (p : BitVec 3) (d : Divisor), s.atStep (.configure p d) 0 → ∃ t : State,
    execTimes 7 (.configure p d) s = next t ∧
    t.dev = { rxq := [], txq := [], ier := p.zeroExtend 8, fifoEn := true, rxTrig := 0b11, lcr := 0x03
              dll := divLo d, dlh := divHi d, baudActive := d } ∧
    t.dev.mode = .normal ∧ t.dev.fcrShadow = 0xC1 ∧ t.dev.cap t.par = s.par.fifoDepth ∧
    t.seq.phase = .idle ∧
    t.arb = { s.arb with resp := mapPut s.seq.req ⟨.done, 0x00⟩ s.arb.resp } ∧
    t.ghost = { s.ghost with trace := s.ghost.trace ++
      [⟨.write, 3, 0x83, s.dev.mode⟩, ⟨.write, 1, divHi d, .divisorAccess⟩, ⟨.write, 0, divLo d, .divisorAccess⟩,
       ⟨.read, 3, 0x83, .divisorAccess⟩, ⟨.write, 3, 0x03, .divisorAccess⟩, ⟨.write, 2, 0xC7, .normal⟩,
       ⟨.write, 1, p.zeroExtend 8, .normal⟩] } ∧
    t.par = s.par ∧ t.draws = s.draws ∧ t.schedule = s.schedule

/-- R220: S0 goes on exactly when the poll shows tx-empty and else fails the poll; S1 hands the byte over and responds DONE; from a
grant with TXQ empty the two together leave TXQ = [B] and nothing else of the device changed (R220's effect, which the spec derives from
R225 and R131; S0's test reads tx-empty as D12 decides it). -/
def Obligations.SendByteCompletes : Prop :=
  ∀ (s : State) (b : Byte),
    (s.atStep (.sendByte b) 0 → ∃ v : Byte, v.getLsbD 5 = s.dev.txq.isEmpty ∧
      exec (.sendByte b) s =
        (if v.getLsbD 5 then
           next { s.withRead 5 v with draws := s.draws + 1, seq := { s.seq with step := 1, t := v } }
         else pollFailed 0 { s.withRead 5 v with draws := s.draws + 1, seq := { s.seq with t := v } })) ∧
    (s.atStep (.sendByte b) 1 → s.dev.dlab = false → s.dev.txq = [] → 0 < s.dev.cap s.par →
      exec (.sendByte b) s = next { s.withWrite 0 b with
        dev := { s.dev with txq := [b] }
        seq := { s.seq with phase := .idle }
        arb := { s.arb with resp := mapPut s.seq.req ⟨.done, 0x00⟩ s.arb.resp } }) ∧
    (s.atStep (.sendByte b) 0 → s.dev.dlab = false → s.dev.txq = [] → 0 < s.dev.cap s.par →
      ∃ (t : State) (v : Byte), execTimes 2 (.sendByte b) s = next t ∧ v.getLsbD 5 = true ∧
        t.dev = { s.dev with txq := [b] } ∧ t.seq.phase = .idle ∧
        t.arb = { s.arb with resp := mapPut s.seq.req ⟨.done, 0x00⟩ s.arb.resp } ∧
        t.ghost = { s.ghost with trace := s.ghost.trace ++ [⟨.read, 5, v, .normal⟩, ⟨.write, 0, b, .normal⟩] } ∧
        t.par = s.par ∧ t.schedule = s.schedule)

/-- R221: with RXQ empty T0 answers NO_DATA and reads nothing; else T0 and T1 take exactly the oldest byte and answer it. -/
def Obligations.TryReceiveCompletes : Prop :=
  ∀ s : State,
    (s.atStep .tryReceive 0 → s.dev.rxq = [] → ∃ v : Byte, v.getLsbD 0 = false ∧
      exec .tryReceive s = next { s.withRead 5 v with
        draws := s.draws + 1
        seq := { s.seq with phase := .idle, t := v }
        arb := { s.arb with resp := mapPut s.seq.req ⟨.noData, 0x00⟩ s.arb.resp } }) ∧
    (s.atStep .tryReceive 0 → s.dev.rxq ≠ [] → ∃ v : Byte, v.getLsbD 0 = true ∧
      exec .tryReceive s = next { s.withRead 5 v with draws := s.draws + 1, seq := { s.seq with step := 1, t := v } }) ∧
    (∀ x q, s.atStep .tryReceive 1 → s.dev.dlab = false → s.dev.rxq = x :: q →
      exec .tryReceive s = next { s.withRead 0 x with
        dev := { s.dev with rxq := q }
        seq := { s.seq with phase := .idle, t := x }
        arb := { s.arb with resp := mapPut s.seq.req ⟨.data, x⟩ s.arb.resp } }) ∧
    (∀ x q, s.atStep .tryReceive 0 → s.dev.dlab = false → s.dev.rxq = x :: q →
      ∃ (t : State) (v : Byte), execTimes 2 .tryReceive s = next t ∧ v.getLsbD 0 = true ∧
        t.dev = { s.dev with rxq := q } ∧ t.seq.phase = .idle ∧
        t.arb = { s.arb with resp := mapPut s.seq.req ⟨.data, x⟩ s.arb.resp } ∧
        t.ghost = { s.ghost with trace := s.ghost.trace ++ [⟨.read, 5, v, .normal⟩, ⟨.read, 0, x, .normal⟩] } ∧
        t.par = s.par ∧ t.schedule = s.schedule)

/-- R222: V0 goes on exactly when the poll shows data-ready, from the first queued byte whatever the trigger level, and else fails the
poll; V1 takes the oldest byte and answers it. That V0 goes on from the first queued byte is the spec's decision D34. -/
def Obligations.ReceiveByteCompletes : Prop :=
  ∀ s : State,
    (s.atStep .receiveByte 0 → ∃ v : Byte, v.getLsbD 0 = !s.dev.rxq.isEmpty ∧
      exec .receiveByte s =
        (if v.getLsbD 0 then
           next { s.withRead 5 v with draws := s.draws + 1, seq := { s.seq with step := 1, t := v } }
         else pollFailed 0 { s.withRead 5 v with draws := s.draws + 1, seq := { s.seq with t := v } })) ∧
    (∀ x q, s.atStep .receiveByte 1 → s.dev.dlab = false → s.dev.rxq = x :: q →
      exec .receiveByte s = next { s.withRead 0 x with
        dev := { s.dev with rxq := q }
        seq := { s.seq with phase := .idle, t := x }
        arb := { s.arb with resp := mapPut s.seq.req ⟨.data, x⟩ s.arb.resp } }) ∧
    (∀ x q, s.atStep .receiveByte 0 → s.dev.dlab = false → s.dev.rxq = x :: q →
      ∃ (t : State) (v : Byte), execTimes 2 .receiveByte s = next t ∧ v.getLsbD 0 = true ∧
        t.dev = { s.dev with rxq := q } ∧ t.seq.phase = .idle ∧
        t.arb = { s.arb with resp := mapPut s.seq.req ⟨.data, x⟩ s.arb.resp } ∧
        t.ghost = { s.ghost with trace := s.ghost.trace ++ [⟨.read, 5, v, .normal⟩, ⟨.read, 0, x, .normal⟩] } ∧
        t.par = s.par ∧ t.schedule = s.schedule)

/-- R223 (D32): POLL_STATUS is one fresh read of LSR, answered whole; it consumes nothing and changes no device state. -/
def Obligations.PollStatusCompletes : Prop :=
  ∀ s : State, s.atStep .pollStatus 0 → ∃ v : Byte,
    lineStatus v = ⟨!s.dev.rxq.isEmpty, s.dev.txq.isEmpty⟩ ∧
    exec .pollStatus s = next { s.withRead 5 v with
      draws := s.draws + 1
      seq := { s.seq with phase := .idle, t := v }
      arb := { s.arb with resp := mapPut s.seq.req ⟨.data, v⟩ s.arb.resp } }

/-- R229 (D22): poll_failed(k) counts the poll, answers TIMEOUT when POLL_LIMIT is set and reached, and else goes to step k; the device is not
changed. -/
def Obligations.FailedPollCountsOrTimesOut : Prop :=
  ∀ (s : State) (k : Nat),
    ((∃ n, s.par.pollLimit = some n ∧ n ≤ s.seq.polls + 1) →
      pollFailed k s = next { s with
        seq := { s.seq with polls := s.seq.polls + 1, phase := .idle }
        arb := { s.arb with resp := mapPut s.seq.req ⟨.timeout, 0x00⟩ s.arb.resp } }) ∧
    ((∀ n, s.par.pollLimit = some n → s.seq.polls + 1 < n) →
      pollFailed k s = next { s with seq := { s.seq with polls := s.seq.polls + 1, step := k } })

/-- R229 as a run: with POLL_LIMIT = some n and a line that does nothing, a freshly granted polling command answers TIMEOUT after exactly
n reads of LSR, none of which showed the tested bit, with no data access and the device unchanged; before that it only polls. -/
def Obligations.BoundedPollingTimesOut : Prop :=
  ∀ (s : State) (i : Instr) (n : Nat), s.atStep i 0 → pollsInVain i s.dev → s.seq.polls = 0 → s.par.pollLimit = some n → 1 ≤ n →
    (∀ m < n, ∃ t, execTimes m i s = next t ∧ t.atStep i 0 ∧ t.seq.polls = m ∧ t.dev = s.dev ∧ t.arb = s.arb) ∧
    ∃ (t : State) (vs : List Byte), execTimes n i s = next t ∧ vs.length = n ∧
      (∀ v ∈ vs, v.getLsbD (if i = .receiveByte then 0 else 5) = false) ∧
      t.ghost.trace = s.ghost.trace ++ vs.map (fun v => ⟨.read, 5, v, s.dev.mode⟩) ∧
      t.dev = s.dev ∧ t.seq.phase = .idle ∧
      t.arb = { s.arb with resp := mapPut s.seq.req ⟨.timeout, 0x00⟩ s.arb.resp }

/-- R231: without POLL_LIMIT and with a line that does nothing, a polling command polls for ever: after any number of micro-steps it is
still at its poll, no fault, no response, the device unchanged. -/
def Obligations.UnboundedPollingNeverEnds : Prop :=
  ∀ (s : State) (i : Instr) (n : Nat), s.atStep i 0 → pollsInVain i s.dev → s.par.pollLimit = none →
    ∃ t, execTimes n i s = next t ∧ t.atStep i 0 ∧ t.seq.polls = s.seq.polls + n ∧ t.dev = s.dev ∧ t.arb = s.arb ∧
      t.ghost.trace.length = s.ghost.trace.length + n

/-- The model's choice for a command the sequencer is not running with those operands (log 10): exec stops. -/
def Obligations.CommandNotRunningStops : Prop :=
  ∀ (s : State) (c : Cmd) (d : Divisor) (p : BitVec 3) (b : Byte),
    (s.seq.phase = .idle ∨ s.seq.instr ≠ c.instr d p b) → exec (c.instr d p b) s = fault .commandNotRunning

/-! ### The arbiter -/

/-- R232 with the model's reading that a requester whose command is running may not submit another (log 21): an enabled submission makes
the word pending, one that is not enabled stops. -/
def Obligations.SubmitMakesPending : Prop :=
  ∀ (s : State) (i : Nat) (w : CmdWord) (l : List Action), s.schedule = .submit i w :: l → CmdWord.wellFormed w = true →
    let free := i < s.par.nReq ∧ mapGet i s.arb.pending = none ∧ mapGet i s.arb.resp = none ∧ ¬(s.seq.phase = .busy ∧ s.seq.req = i)
    (free → ∃ m, step s = next { s with arb := { s.arb with pending := m }, schedule := l, draws := s.draws + 1 } ∧
      mapGet i m = some w ∧ ∀ j, j ≠ i → mapGet j m = mapGet j s.arb.pending) ∧
    (¬free → step s = fault .submitNotEnabled)

/-- R234 (D21): an idle sequencer takes the granted requester's command: operands latched, step and polls 0, busy; the entry leaves the pending
map. Any pending requester may be granted; a busy sequencer grants none. When the schedule is empty the arbiter grants by itself one of
the requesters that were pending, in the same way (that it does so, and that which one is a free value, are the model's log 7). -/
def Obligations.GrantLoadsCommand : Prop :=
  (∀ (s : State) (i : Nat) (l : List Action), s.schedule = .grant i :: l →
    (∀ w c, s.seq.phase = .idle → MapWf s.arb.pending → mapGet i s.arb.pending = some w → cmdOf w = .ok c →
      ∃ m, step s = next { s with
          arb := { s.arb with pending := m }
          seq := { s.seq with phase := .busy, cmd := c, req := i, step := 0, polls := 0
                              d := CmdWord.arg w, p := CmdWord.ierp w, b := CmdWord.byte w }
          schedule := l, draws := s.draws + 1 } ∧
        mapGet i m = none ∧ (∀ j, j ≠ i → mapGet j m = mapGet j s.arb.pending) ∧
        decodeCmd w = .ok (c.instr (CmdWord.arg w) (CmdWord.ierp w) (CmdWord.byte w))) ∧
    (s.seq.phase = .busy → step s = fault .grantNotEnabled)) ∧
  (∀ s : State, Inv s → s.seq.phase = .idle → s.schedule = [] → s.arb.pending ≠ [] →
    ∃ i w c m, mapGet i s.arb.pending = some w ∧ step s = next { s with
        arb := { s.arb with pending := m }
        seq := { s.seq with phase := .busy, cmd := c, req := i, step := 0, polls := 0
                            d := CmdWord.arg w, p := CmdWord.ierp w, b := CmdWord.byte w }
        draws := s.draws + 1 } ∧
      mapGet i m = none ∧ (∀ j, j ≠ i → mapGet j m = mapGet j s.arb.pending) ∧
      decodeCmd w = .ok (c.instr (CmdWord.arg w) (CmdWord.ierp w) (CmdWord.byte w)))

/-- R235, the taking (D21): requester i's response leaves the block and no other response does; there must be one. -/
def Obligations.TakeRemovesOwnResponse : Prop :=
  ∀ (s : State) (i : Nat) (l : List Action), s.schedule = .take i :: l → MapWf s.arb.resp →
    (mapGet i s.arb.resp ≠ none → ∃ m, step s = next { s with
        arb := { s.arb with resp := m }, schedule := l, draws := s.draws + 1 } ∧
      mapGet i m = none ∧ ∀ j, j ≠ i → mapGet j m = mapGet j s.arb.resp) ∧
    (mapGet i s.arb.resp = none → step s = fault .takeNotEnabled)

/-- R35: while a command runs, whichever agent steps, the command, its requester and its operand latches stay; so no other command is
granted before it ends (R234, R236). -/
def Obligations.RunningCommandIsNotReplaced : Prop :=
  ∀ s t : State, step s = next t → s.seq.phase = .busy → t.seq.phase = .busy →
    t.seq.cmd = s.seq.cmd ∧ t.seq.req = s.seq.req ∧ t.seq.d = s.seq.d ∧ t.seq.p = s.seq.p ∧ t.seq.b = s.seq.b

/-- R302, R235: a command ends only by a response to the requester that issued it, or by reset. -/
def Obligations.CommandEndsWithItsResponse : Prop :=
  ∀ s t : State, step s = next t → s.seq.phase = .busy → t.seq.phase = .idle →
    s.schedule.head? = some .reset ∨
    ∃ r : Response, mapGet s.seq.req t.arb.resp = some r ∧ (r.kind = .data ∨ r.data = 0x00) ∧
      (∀ j, j ≠ s.seq.req → mapGet j t.arb.resp = mapGet j s.arb.resp) ∧ t.arb.pending = s.arb.pending

/-! ### The line agent -/

/-- R250, R251, R252 (D11, D14): an arrival appends while there is room, an overrun loses the new byte or replaces the newest, a drain moves the oldest
byte of TXQ to TXLOG; each stops where it is not enabled; nothing else changes. -/
def Obligations.LineAgentActions : Prop :=
  ∀ (s : State) (b : Byte) (l : List Action),
    (s.schedule = .rxArrive b :: l →
      (s.dev.rxq.length < s.dev.cap s.par → step s = next { s with
        dev := { s.dev with rxq := s.dev.rxq ++ [b] }, schedule := l, draws := s.draws + 1 }) ∧
      (s.dev.cap s.par ≤ s.dev.rxq.length → step s = fault .rxArriveNotEnabled)) ∧
    (s.schedule = .rxOverrun b :: l →
      (s.dev.rxq.length = s.dev.cap s.par → ∃ q n, (q = s.dev.rxq ∨ q = s.dev.rxq.dropLast ++ [b]) ∧
        step s = next { s with dev := { s.dev with rxq := q }, schedule := l, draws := n }) ∧
      (s.dev.rxq.length ≠ s.dev.cap s.par → step s = fault .rxOverrunNotEnabled)) ∧
    (s.schedule = .txDrain :: l →
      (∀ x q, s.dev.txq = x :: q → step s = next { s with
        dev := { s.dev with txq := q }, ghost := { s.ghost with txlog := s.ghost.txlog ++ [x] }
        schedule := l, draws := s.draws + 1 }) ∧
      (s.dev.txq = [] → step s = fault .txDrainNotEnabled))

/-- R256 (the spec's decision D27): the line agent changes only RXQ, TXQ and TXLOG (and the model's own schedule and counter), removes no byte
from RXQ, adds none to TXQ, and is enabled alike in either access mode. RXQ keeps every byte it had; only an overrun may replace the newest
one (R251, D14). -/
def Obligations.LineAgentFrame : Prop :=
  ∀ (s t : State) (a : Action) (l : List Action), s.schedule = a :: l →
    (a = .txDrain ∨ ∃ b, a = .rxArrive b ∨ a = .rxOverrun b) → step s = next t →
    t.par = s.par ∧ t.seq = s.seq ∧ t.arb = s.arb ∧ t.rdata = s.rdata ∧ t.ghost.trace = s.ghost.trace ∧
    t.dev = { s.dev with rxq := t.dev.rxq, txq := t.dev.txq } ∧
    s.dev.rxq.length ≤ t.dev.rxq.length ∧ s.dev.rxq.dropLast <+: t.dev.rxq ∧
    ((∀ b, a ≠ .rxOverrun b) → s.dev.rxq <+: t.dev.rxq) ∧ t.dev.txq <:+ s.dev.txq ∧
    ∀ v : Byte, ∃ u, step { s with dev := { s.dev with lcr := v } } = next u

/-! ### Reset and outputs -/

/-- R43, R301 (the spec's own values, D5): the reset image, whatever DLL, DLH and BAUD_ACTIVE are drawn as. -/
def Obligations.ResetValues : Prop :=
  State.reset.dev.rxq = [] ∧ State.reset.dev.txq = [] ∧ State.reset.dev.ier = 0x00 ∧ State.reset.dev.fifoEn = false ∧
  State.reset.dev.rxTrig = 0b00 ∧ State.reset.dev.lcr = 0x00 ∧ State.reset.dev.mode = .normal ∧
  State.reset.dev.dataReady = false ∧ State.reset.dev.txEmpty = true ∧
  State.reset.seq.phase = .idle ∧ State.reset.seq.polls = 0 ∧
  State.reset.arb.pending = [] ∧ State.reset.arb.resp = [] ∧
  State.reset.ghost.trace = [] ∧ State.reset.ghost.txlog = [] ∧
  State.reset.irqO = false ∧ State.reset.baudO = State.reset.dev.baudActive

/-- R302, R300 (D5, D28): reset in any state, a running command included: device at the reset image of the parameters, sequencer idle, nothing pending,
no response, histories empty. The parameters and the turns still to come stay (log 20). -/
def Obligations.ResetDropsEverything : Prop :=
  ∀ (s : State) (l : List Action), s.schedule = .reset :: l → ∃ t, step s = next t ∧
    t.dev = { rxq := s.par.resetImage.rxq, txq := s.par.resetImage.txq, ier := s.par.resetImage.ier
              fifoEn := s.par.resetImage.fifoEn, rxTrig := s.par.resetImage.rxTrig, lcr := s.par.resetImage.lcr
              dll := t.dev.dll, dlh := t.dev.dlh, baudActive := t.dev.baudActive } ∧
    t.seq.phase = .idle ∧ t.seq.polls = 0 ∧ t.arb.pending = [] ∧ t.arb.resp = [] ∧ t.ghost.trace = [] ∧ t.ghost.txlog = [] ∧
    t.par = s.par ∧ t.schedule = l

/-- The interrupt level as R276 decides it (D20, the spec's own choice; log 18), for every value of ls_cond: no enable, no interrupt; the
receive term from the trigger threshold on, which is 14 for code 11 with the FIFO on and 1 with it off; the transmit term while TXQ is
empty; the line-status term as drawn. -/
def Obligations.InterruptLevel : Prop :=
  ∀ (d : Dev) (ls : Bool),
    (d.ier &&& 0x07 = 0 → d.irq ls = false) ∧
    (d.ier = 0x01 → d.fifoEn = true → d.rxTrig = 0b11 → d.irq ls = decide (14 ≤ d.rxq.length)) ∧
    (d.ier = 0x01 → d.fifoEn = false → d.irq ls = decide (1 ≤ d.rxq.length)) ∧
    (d.ier = 0x02 → d.irq ls = decide (d.txq.length = 0)) ∧
    (d.ier = 0x04 → d.irq ls = ls) ∧
    (d.irq ls = true ↔ (d.ier.getLsbD 0 = true ∧ d.trigThreshold ≤ d.rxq.length) ∨
      (d.ier.getLsbD 1 = true ∧ d.txq = []) ∨ (d.ier.getLsbD 2 = true ∧ ls = true))

/-! ### Invariants and whole-machine rules -/

/-- Both invariants hold right after reset. -/
def Obligations.InvariantsHoldAtReset : Prop :=
  Inv State.reset ∧ Discipline State.reset ∧ soleOwner State.reset.schedule = true

/-- R40 (a), (b) and the arbiter's and sequencer's invariants: every step of any agent keeps them, a second master's too. -/
def Obligations.StepKeepsInvariant : Prop :=
  ∀ s t : State, Inv s → step s = next t → Inv t

/-- R40 (d), R187, R204, R225, R226: under sole ownership of the port every step keeps the sequencer's discipline: the access mode its
position calls for, and both gates. -/
def Obligations.StepKeepsDiscipline : Prop :=
  ∀ s t : State, Inv s → Discipline s → soleOwner s.schedule = true → step s = next t →
    Discipline t ∧ soleOwner t.schedule = true

/-- R271, R272: in a disciplined state a running command's micro-step always completes; it is never refused and never stops. -/
def Obligations.RunningCommandNeverStops : Prop :=
  ∀ s : State, Inv s → Discipline s → s.seq.phase = .busy → (s.schedule = [] ∨ ∃ l, s.schedule = .microStep :: l) →
    ∃ t, step s = next t

/-- R187 (with R236's property): in a disciplined state a micro-step accesses offset 0 or 1 in DivisorAccess only at B2, B3, C1 and C2, and in
Normal only at S1, T1, V1 and C6; so no byte meant for TX is written in DivisorAccess. -/
def Obligations.AccessesKeepModeDiscipline : Prop :=
  ∀ (s t : State) (e : TraceEntry), Inv s → Discipline s → s.seq.phase = .busy →
    exec s.seq.instr s = next t → t.ghost.trace = s.ghost.trace ++ [e] → e.off = 0 ∨ e.off = 1 →
    (e.mode = .divisorAccess →
      (s.seq.cmd = .setBaud ∧ (s.seq.step = 2 ∨ s.seq.step = 3)) ∨ (s.seq.cmd = .configure ∧ (s.seq.step = 1 ∨ s.seq.step = 2))) ∧
    (e.mode = .normal →
      ((s.seq.cmd = .sendByte ∨ s.seq.cmd = .tryReceive ∨ s.seq.cmd = .receiveByte) ∧ s.seq.step = 1) ∨
      (s.seq.cmd = .configure ∧ s.seq.step = 6))

/-- R38: no rule reads GHOST: with any other history the same step has the same outcome but for GHOST. -/
def Obligations.HistoryIsNeverRead : Prop :=
  ∀ (s : State) (g : Ghost),
    (∀ t, step s = next t → ∃ g', step (s.setGhost g) = next (t.setGhost g')) ∧
    (∀ r, step s = fault r → step (s.setGhost g) = fault r) ∧
    (∀ r, step s = refused r → step (s.setGhost g) = refused r)

/-- R63 and R5: a step adds at most one entry to TRACE and drops, merges or reorders none, unless it is reset; it never changes a parameter. -/
def Obligations.TraceGrowsByAtMostOne : Prop :=
  ∀ s t : State, step s = next t →
    t.par = s.par ∧
    (s.schedule.head? ≠ some .reset → ∃ es, es.length ≤ 1 ∧ t.ghost.trace = s.ghost.trace ++ es)

/-- R26, R181: the mode is LCR bit 7, and LCR changes only in a step whose operation is a write of LCR with that value, or by reset. -/
def Obligations.OnlyLcrWritesChangeMode : Prop :=
  (∀ s : State, s.dev.mode = if s.dev.lcr.getLsbD 7 then .divisorAccess else .normal) ∧
  (∀ s t : State, step s = next t → s.schedule.head? ≠ some .reset →
    t.dev.lcr = s.dev.lcr ∨ t.ghost.trace = s.ghost.trace ++ [⟨.write, 3, t.dev.lcr, s.dev.mode⟩])

/-- R189, R275, R139, R203, R208, R76: under sole ownership and but for reset, only SET_BAUD at B2, B3 and CONFIGURE at C1, C2 change DLL, DLH or BAUD_ACTIVE, only
CONFIGURE at C6 changes IER, and only CONFIGURE at C5 changes the FIFO settings. -/
def Obligations.OnlyTheirCommandsConfigure : Prop :=
  ∀ s t : State, Inv s → Discipline s → soleOwner s.schedule = true → step s = next t → s.schedule.head? ≠ some .reset →
    (t.dev.dll ≠ s.dev.dll ∨ t.dev.dlh ≠ s.dev.dlh ∨ t.dev.baudActive ≠ s.dev.baudActive →
      s.seq.phase = .busy ∧ ((s.seq.cmd = .setBaud ∧ (s.seq.step = 2 ∨ s.seq.step = 3)) ∨
        (s.seq.cmd = .configure ∧ (s.seq.step = 1 ∨ s.seq.step = 2)))) ∧
    (t.dev.ier ≠ s.dev.ier → s.seq.phase = .busy ∧ s.seq.cmd = .configure ∧ s.seq.step = 6) ∧
    (t.dev.fifoEn ≠ s.dev.fifoEn ∨ t.dev.rxTrig ≠ s.dev.rxTrig → s.seq.phase = .busy ∧ s.seq.cmd = .configure ∧ s.seq.step = 5)

/-- R252's order of transmission: under sole ownership of the port (R76) and but for reset, TXLOG followed by TXQ loses and reorders no byte and
grows only by the byte of a SEND_BYTE, whichever agent steps; the one exception is CONFIGURE's clearing pulse at C5, which empties TXQ and
leaves TXLOG. -/
def Obligations.SentBytesKeepTheirOrder : Prop :=
  ∀ s t : State, Inv s → Discipline s → soleOwner s.schedule = true → step s = next t → s.schedule.head? ≠ some .reset →
    t.ghost.txlog ++ t.dev.txq = s.ghost.txlog ++ s.dev.txq ∨
    (s.seq.phase = .busy ∧ s.seq.cmd = .sendByte ∧ t.seq.phase = .idle ∧
      t.ghost.txlog ++ t.dev.txq = s.ghost.txlog ++ s.dev.txq ++ [s.seq.b]) ∨
    (s.seq.phase = .busy ∧ s.seq.cmd = .configure ∧ s.seq.step = 5 ∧ t.seq.step = 6 ∧
      t.ghost.txlog = s.ghost.txlog ∧ t.dev.txq = [])
end

