-- ==== Sys2Proof/Laws/State.lean ====
section
/-! SUPPORT. One lemma per field per update of State, true by rfl. -/

namespace Sys2Proof.Machine

/-! ### setDev -/

@[simp] theorem State.setDev_par (s : State) (d : Dev) : (s.setDev d).par = s.par := rfl
@[simp] theorem State.setDev_dev (s : State) (d : Dev) : (s.setDev d).dev = d := rfl
@[simp] theorem State.setDev_seq (s : State) (d : Dev) : (s.setDev d).seq = s.seq := rfl
@[simp] theorem State.setDev_arb (s : State) (d : Dev) : (s.setDev d).arb = s.arb := rfl
@[simp] theorem State.setDev_ghost (s : State) (d : Dev) : (s.setDev d).ghost = s.ghost := rfl
@[simp] theorem State.setDev_rdata (s : State) (d : Dev) : (s.setDev d).rdata = s.rdata := rfl
@[simp] theorem State.setDev_draws (s : State) (d : Dev) : (s.setDev d).draws = s.draws := rfl
@[simp] theorem State.setDev_schedule (s : State) (d : Dev) : (s.setDev d).schedule = s.schedule := rfl

/-! ### setSeq -/

@[simp] theorem State.setSeq_par (s : State) (q : Seq) : (s.setSeq q).par = s.par := rfl
@[simp] theorem State.setSeq_dev (s : State) (q : Seq) : (s.setSeq q).dev = s.dev := rfl
@[simp] theorem State.setSeq_seq (s : State) (q : Seq) : (s.setSeq q).seq = q := rfl
@[simp] theorem State.setSeq_arb (s : State) (q : Seq) : (s.setSeq q).arb = s.arb := rfl
@[simp] theorem State.setSeq_ghost (s : State) (q : Seq) : (s.setSeq q).ghost = s.ghost := rfl
@[simp] theorem State.setSeq_rdata (s : State) (q : Seq) : (s.setSeq q).rdata = s.rdata := rfl
@[simp] theorem State.setSeq_draws (s : State) (q : Seq) : (s.setSeq q).draws = s.draws := rfl
@[simp] theorem State.setSeq_schedule (s : State) (q : Seq) : (s.setSeq q).schedule = s.schedule := rfl

/-! ### setArb -/

@[simp] theorem State.setArb_par (s : State) (a : Arb) : (s.setArb a).par = s.par := rfl
@[simp] theorem State.setArb_dev (s : State) (a : Arb) : (s.setArb a).dev = s.dev := rfl
@[simp] theorem State.setArb_seq (s : State) (a : Arb) : (s.setArb a).seq = s.seq := rfl
@[simp] theorem State.setArb_arb (s : State) (a : Arb) : (s.setArb a).arb = a := rfl
@[simp] theorem State.setArb_ghost (s : State) (a : Arb) : (s.setArb a).ghost = s.ghost := rfl
@[simp] theorem State.setArb_rdata (s : State) (a : Arb) : (s.setArb a).rdata = s.rdata := rfl
@[simp] theorem State.setArb_draws (s : State) (a : Arb) : (s.setArb a).draws = s.draws := rfl
@[simp] theorem State.setArb_schedule (s : State) (a : Arb) : (s.setArb a).schedule = s.schedule := rfl

/-! ### setSchedule -/

@[simp] theorem State.setSchedule_par (s : State) (l : List Action) : (s.setSchedule l).par = s.par := rfl
@[simp] theorem State.setSchedule_dev (s : State) (l : List Action) : (s.setSchedule l).dev = s.dev := rfl
@[simp] theorem State.setSchedule_seq (s : State) (l : List Action) : (s.setSchedule l).seq = s.seq := rfl
@[simp] theorem State.setSchedule_arb (s : State) (l : List Action) : (s.setSchedule l).arb = s.arb := rfl
@[simp] theorem State.setSchedule_ghost (s : State) (l : List Action) : (s.setSchedule l).ghost = s.ghost := rfl
@[simp] theorem State.setSchedule_rdata (s : State) (l : List Action) : (s.setSchedule l).rdata = s.rdata := rfl
@[simp] theorem State.setSchedule_draws (s : State) (l : List Action) : (s.setSchedule l).draws = s.draws := rfl
@[simp] theorem State.setSchedule_schedule (s : State) (l : List Action) : (s.setSchedule l).schedule = l := rfl

/-! ### setRdata -/

@[simp] theorem State.setRdata_par (s : State) (v : Byte) : (s.setRdata v).par = s.par := rfl
@[simp] theorem State.setRdata_dev (s : State) (v : Byte) : (s.setRdata v).dev = s.dev := rfl
@[simp] theorem State.setRdata_seq (s : State) (v : Byte) : (s.setRdata v).seq = s.seq := rfl
@[simp] theorem State.setRdata_arb (s : State) (v : Byte) : (s.setRdata v).arb = s.arb := rfl
@[simp] theorem State.setRdata_ghost (s : State) (v : Byte) : (s.setRdata v).ghost = s.ghost := rfl
@[simp] theorem State.setRdata_rdata (s : State) (v : Byte) : (s.setRdata v).rdata = v := rfl
@[simp] theorem State.setRdata_draws (s : State) (v : Byte) : (s.setRdata v).draws = s.draws := rfl
@[simp] theorem State.setRdata_schedule (s : State) (v : Byte) : (s.setRdata v).schedule = s.schedule := rfl

/-! ### setGhost -/

@[simp] theorem State.setGhost_par (s : State) (g : Ghost) : (s.setGhost g).par = s.par := rfl
@[simp] theorem State.setGhost_dev (s : State) (g : Ghost) : (s.setGhost g).dev = s.dev := rfl
@[simp] theorem State.setGhost_seq (s : State) (g : Ghost) : (s.setGhost g).seq = s.seq := rfl
@[simp] theorem State.setGhost_arb (s : State) (g : Ghost) : (s.setGhost g).arb = s.arb := rfl
@[simp] theorem State.setGhost_ghost (s : State) (g : Ghost) : (s.setGhost g).ghost = g := rfl
@[simp] theorem State.setGhost_rdata (s : State) (g : Ghost) : (s.setGhost g).rdata = s.rdata := rfl
@[simp] theorem State.setGhost_draws (s : State) (g : Ghost) : (s.setGhost g).draws = s.draws := rfl
@[simp] theorem State.setGhost_schedule (s : State) (g : Ghost) : (s.setGhost g).schedule = s.schedule := rfl

/-! ### advance -/

@[simp] theorem State.advance_par (s : State) : (s.advance).par = s.par := rfl
@[simp] theorem State.advance_dev (s : State) : (s.advance).dev = s.dev := rfl
@[simp] theorem State.advance_seq (s : State) : (s.advance).seq = s.seq := rfl
@[simp] theorem State.advance_arb (s : State) : (s.advance).arb = s.arb := rfl
@[simp] theorem State.advance_ghost (s : State) : (s.advance).ghost = s.ghost := rfl
@[simp] theorem State.advance_rdata (s : State) : (s.advance).rdata = s.rdata := rfl
@[simp] theorem State.advance_draws (s : State) : (s.advance).draws = s.draws + 1 := rfl
@[simp] theorem State.advance_schedule (s : State) : (s.advance).schedule = s.schedule := rfl

/-! ### record -/

@[simp] theorem State.record_par (s : State) (e : TraceEntry) : (s.record e).par = s.par := rfl
@[simp] theorem State.record_dev (s : State) (e : TraceEntry) : (s.record e).dev = s.dev := rfl
@[simp] theorem State.record_seq (s : State) (e : TraceEntry) : (s.record e).seq = s.seq := rfl
@[simp] theorem State.record_arb (s : State) (e : TraceEntry) : (s.record e).arb = s.arb := rfl
@[simp] theorem State.record_ghost (s : State) (e : TraceEntry) : (s.record e).ghost = { s.ghost with trace := s.ghost.trace ++ [e] } := rfl
@[simp] theorem State.record_rdata (s : State) (e : TraceEntry) : (s.record e).rdata = s.rdata := rfl
@[simp] theorem State.record_draws (s : State) (e : TraceEntry) : (s.record e).draws = s.draws := rfl
@[simp] theorem State.record_schedule (s : State) (e : TraceEntry) : (s.record e).schedule = s.schedule := rfl

/-! ### logTx -/

@[simp] theorem State.logTx_par (s : State) (b : Byte) : (s.logTx b).par = s.par := rfl
@[simp] theorem State.logTx_dev (s : State) (b : Byte) : (s.logTx b).dev = s.dev := rfl
@[simp] theorem State.logTx_seq (s : State) (b : Byte) : (s.logTx b).seq = s.seq := rfl
@[simp] theorem State.logTx_arb (s : State) (b : Byte) : (s.logTx b).arb = s.arb := rfl
@[simp] theorem State.logTx_ghost (s : State) (b : Byte) : (s.logTx b).ghost = { s.ghost with txlog := s.ghost.txlog ++ [b] } := rfl
@[simp] theorem State.logTx_rdata (s : State) (b : Byte) : (s.logTx b).rdata = s.rdata := rfl
@[simp] theorem State.logTx_draws (s : State) (b : Byte) : (s.logTx b).draws = s.draws := rfl
@[simp] theorem State.logTx_schedule (s : State) (b : Byte) : (s.logTx b).schedule = s.schedule := rfl

/-! ### The turn's beginning, the port's ends and the latch -/

@[simp] theorem beginTurn_par (s : State) : (beginTurn s).par = s.par := rfl
@[simp] theorem beginTurn_dev (s : State) : (beginTurn s).dev = s.dev := rfl
@[simp] theorem beginTurn_seq (s : State) : (beginTurn s).seq = s.seq := rfl
@[simp] theorem beginTurn_arb (s : State) : (beginTurn s).arb = s.arb := rfl
@[simp] theorem beginTurn_ghost (s : State) : (beginTurn s).ghost = s.ghost := rfl
@[simp] theorem beginTurn_rdata (s : State) : (beginTurn s).rdata = s.rdata := rfl
@[simp] theorem beginTurn_draws (s : State) : (beginTurn s).draws = s.draws + 1 := rfl
@[simp] theorem beginTurn_schedule (s : State) : (beginTurn s).schedule = s.schedule.tail := rfl
@[simp] theorem latchT_par (s : State) : (latchT s).par = s.par := rfl
@[simp] theorem latchT_dev (s : State) : (latchT s).dev = s.dev := rfl
@[simp] theorem latchT_seq (s : State) : (latchT s).seq = { s.seq with t := s.rdata } := rfl
@[simp] theorem latchT_arb (s : State) : (latchT s).arb = s.arb := rfl
@[simp] theorem latchT_ghost (s : State) : (latchT s).ghost = s.ghost := rfl
@[simp] theorem latchT_rdata (s : State) : (latchT s).rdata = s.rdata := rfl
@[simp] theorem latchT_draws (s : State) : (latchT s).draws = s.draws := rfl
@[simp] theorem latchT_schedule (s : State) : (latchT s).schedule = s.schedule := rfl

/-! ### Reset -/

@[simp] theorem takeReset_par (s : State) : (takeReset s).par = s.par := rfl
@[simp] theorem takeReset_dev (s : State) : (takeReset s).dev = Dev.ofImage s.par.resetImage s.draws := rfl
@[simp] theorem takeReset_seq (s : State) : (takeReset s).seq = Seq.reset := rfl
@[simp] theorem takeReset_arb (s : State) : (takeReset s).arb = ⟨[], []⟩ := rfl
@[simp] theorem takeReset_ghost (s : State) : (takeReset s).ghost = ⟨[], []⟩ := rfl
@[simp] theorem takeReset_rdata (s : State) : (takeReset s).rdata = 0 := rfl
@[simp] theorem takeReset_draws (s : State) : (takeReset s).draws = s.draws + 1 := rfl
@[simp] theorem takeReset_schedule (s : State) : (takeReset s).schedule = s.schedule := rfl

end Sys2Proof.Machine
end

