-- ==== Sys2Proof/Laws/Word.lean ====
section
/-! SUPPORT. The fields of the words the model builds, and the arithmetic laws of 30_encoding R116. -/

namespace Sys2Proof

/-! ### Bus words -/

theorem busRead_rw (off : Offset) : (busRead off).getLsbD 11 = false := by simp [busRead]
theorem busRead_off2 (off : Offset) : (busRead off).getLsbD 10 = off.getLsbD 2 := by simp [busRead]
theorem busRead_off1 (off : Offset) : (busRead off).getLsbD 9 = off.getLsbD 1 := by simp [busRead]
theorem busRead_off0 (off : Offset) : (busRead off).getLsbD 8 = off.getLsbD 0 := by simp [busRead]
theorem busWrite_rw (off : Offset) (b : Byte) : (busWrite off b).getLsbD 11 = true := by simp [busWrite]
theorem busWrite_off2 (off : Offset) (b : Byte) : (busWrite off b).getLsbD 10 = off.getLsbD 2 := by simp [busWrite]
theorem busWrite_off1 (off : Offset) (b : Byte) : (busWrite off b).getLsbD 9 = off.getLsbD 1 := by simp [busWrite]
theorem busWrite_off0 (off : Offset) (b : Byte) : (busWrite off b).getLsbD 8 = off.getLsbD 0 := by simp [busWrite]

@[simp] theorem busRead_isWrite (off : Offset) : BusWord.isWrite (busRead off) = false := busRead_rw off
@[simp] theorem busWrite_isWrite (off : Offset) (b : Byte) : BusWord.isWrite (busWrite off b) = true := busWrite_rw off b

@[simp] theorem busWrite_wdata (off : Offset) (b : Byte) : BusWord.wdata (busWrite off b) = b := by
  ext i hi
  interval_cases i <;> simp [busWrite, BusWord.wdata]

@[simp] theorem busWrite_off (off : Offset) (b : Byte) : BusWord.off (busWrite off b) = off := by
  ext i hi
  interval_cases i <;> simp [busWrite, BusWord.off]

@[simp] theorem busRead_off (off : Offset) : BusWord.off (busRead off) = off := by
  ext i hi
  interval_cases i <;> simp [busRead, BusWord.off]

/-! ### Command words -/

@[simp] theorem cmdWord_arg (op : BitVec 4) (wls trig : BitVec 2) (ierp : BitVec 3) (arg : Divisor) :
    CmdWord.arg (cmdWord op wls trig ierp arg) = arg := by
  ext i hi
  interval_cases i <;> simp [CmdWord.arg, cmdWord]

@[simp] theorem cmdWord_ierp (op : BitVec 4) (wls trig : BitVec 2) (ierp : BitVec 3) (arg : Divisor) :
    CmdWord.ierp (cmdWord op wls trig ierp arg) = ierp := by
  ext i hi
  interval_cases i <;> simp [CmdWord.ierp, cmdWord]

@[simp] theorem cmdWord_byte (op : BitVec 4) (wls trig : BitVec 2) (ierp : BitVec 3) (b : Byte) :
    CmdWord.byte (cmdWord op wls trig ierp (b.zeroExtend 16)) = b := by
  ext i hi
  interval_cases i <;> simp [CmdWord.byte, cmdWord]

/-- A word that matches a command's row is that command: the six patterns differ in OP. -/
theorem cmdOf_eq_ok {c : Cmd} {w : CmdWord} (h : c.matches w = true) : cmdOf w = .ok c := by
  have other : ∀ c' : Cmd, c' ≠ c → c'.matches w = false := by
    intro c' ne
    by_contra hc
    have hc' : c'.matches w = true := by simpa using hc
    rw [Cmd.matches, beq_iff_eq] at h hc'
    have op : c.pattern &&& 0xF0000000 = c'.pattern &&& 0xF0000000 := by
      have m : ∀ x : Cmd, x.mask &&& 0xF0000000 = (0xF0000000 : CmdWord) := by intro x; cases x <;> decide
      rw [← h, ← hc', BitVec.and_assoc, BitVec.and_assoc, m, m]
    cases c <;> cases c' <;> first | exact ne rfl | (revert op; decide)
  have rows : ∀ c' : Cmd, c'.matches w = decide (c' = c) := by
    intro c'
    by_cases e : c' = c
    · simp [e, h]
    · simp [e, other c' e]
  cases c <;> simp [cmdOf, Cmd.all, List.find?, rows]

/-- cmdOf answers only with a command whose row the word matches. -/
theorem matches_of_cmdOf {c : Cmd} {w : CmdWord} (h : cmdOf w = .ok c) : c.matches w = true := by
  unfold cmdOf at h
  split at h
  · next c' hf =>
    cases h
    simpa using List.find?_some hf
  · cases h

/-! ### Bits (R116) -/

@[simp] theorem setDlab_dlab (v : Byte) : (Machine.setDlab v).getLsbD 7 = true := by
  simp [Machine.setDlab, Machine.lcrDlab]

@[simp] theorem clearDlab_dlab (v : Byte) : (Machine.clearDlab v).getLsbD 7 = false := by
  simp [Machine.clearDlab]

@[simp] theorem clearDlab_setDlab (v : Byte) : Machine.clearDlab (Machine.setDlab v) = Machine.clearDlab v := by
  ext i hi
  interval_cases i <;> simp [Machine.setDlab, Machine.lcrDlab, Machine.clearDlab]

@[simp] theorem divisorOf_hi_lo (d : Divisor) : Machine.divisorOf (Machine.divHi d) (Machine.divLo d) = d := by
  ext i hi
  interval_cases i <;> simp [Machine.divisorOf, Machine.divHi, Machine.divLo]

/-- CONFIGURE's IER byte has no reserved bit (R202). -/
@[simp] theorem ierValue_legal (p : BitVec 3) : Machine.ierValue p &&& 0xF8 = 0 := by
  ext i hi
  interval_cases i <;> simp [Machine.ierValue]

/-- The two defined bits of an LSR byte are the two condition bits, whatever the free ones are (R97, R144). -/
@[simp] theorem lineStatus_lsr (d : Machine.Dev) (free : Byte) :
    Machine.lineStatus (d.lsr free) = ⟨d.dataReady, d.txEmpty⟩ := by
  unfold Machine.lineStatus Machine.Dev.lsr
  cases d.dataReady <;> cases d.txEmpty <;> simp

end Sys2Proof
end

