-- ==== Sys2Proof/Laws/Ops.lean ====
section
/-! SUPPORT. For each shared operation, what it can do; the laws of the partial maps; that every map operation keeps the canonical
form. -/

namespace Sys2Proof.Machine

/-! ### Going on -/

@[simp] theorem andThen_next (s : State) (k : State → Result) : andThen (.next s) k = k s := rfl
@[simp] theorem andThen_fault (r : Fault) (k : State → Result) : andThen (.fault r) k = .fault r := rfl
@[simp] theorem andThen_refused (r : Refusal) (k : State → Result) : andThen (.refused r) k = .refused r := rfl

/-- A next state of `andThen` comes through a next state of its first part. -/
theorem andThen_eq_next {o : Result} {k : State → Result} {t : State} :
    andThen o k = .next t ↔ ∃ s, o = .next s ∧ k s = .next t := by
  cases o <;> simp

/-! ### Guards -/

theorem selectedUnder_eq_next {dlab : Bool} {s t : State} {o : Result} :
    selectedUnder dlab s o = .next t ↔ s.dev.dlab = dlab ∧ o = .next t := by
  unfold selectedUnder
  split <;> simp_all

theorem selectedUnder_pos {dlab : Bool} {s : State} (h : s.dev.dlab = dlab) (o : Result) : selectedUnder dlab s o = o := by
  simp [selectedUnder, h]

theorem selectedUnder_neg {dlab : Bool} {s : State} (h : s.dev.dlab ≠ dlab) (o : Result) :
    selectedUnder dlab s o = .fault .notSelected := by
  simp [selectedUnder, h]

theorem whileRunning_eq_next {i : Instr} {s t : State} {o : Result} :
    whileRunning i s o = .next t ↔ (s.seq.phase = .busy ∧ s.seq.instr = i) ∧ o = .next t := by
  unfold whileRunning
  split <;> simp_all

theorem whileRunning_pos {i : Instr} {s : State} (hp : s.seq.phase = .busy) (hi : s.seq.instr = i) (o : Result) :
    whileRunning i s o = o := by
  simp [whileRunning, hp, hi]

/-! ### The sequencer's control flow -/

/-- poll_failed either responds TIMEOUT or goes back to step `k`; both count the poll (R229). -/
theorem pollFailed_cases (k : Nat) (s : State) :
    (pollLimitReached s.par (s.seq.polls + 1) = true ∧
      pollFailed k s = respond .timeout 0 (s.setSeq { s.seq with polls := s.seq.polls + 1 })) ∨
    (pollLimitReached s.par (s.seq.polls + 1) = false ∧
      pollFailed k s = goto k (s.setSeq { s.seq with polls := s.seq.polls + 1 })) := by
  unfold pollFailed
  cases h : pollLimitReached s.par (s.seq.polls + 1) <;> simp [h]

@[simp] theorem pollLimitReached_none {p : Params} (h : p.pollLimit = none) (n : Nat) : pollLimitReached p n = false := by
  simp [pollLimitReached, h]

theorem pollLimitReached_some {p : Params} {l : Nat} (h : p.pollLimit = some l) (n : Nat) :
    pollLimitReached p n = decide (l ≤ n) := by
  simp [pollLimitReached, h]

/-! ### The running command -/

theorem instr_configure {q : Seq} {p : BitVec 3} {d : Divisor} (h : q.instr = .configure p d) :
    q.cmd = .configure ∧ q.p = p ∧ q.d = d := by
  unfold Seq.instr Cmd.instr at h
  split at h <;> simp_all

theorem instr_setBaud {q : Seq} {d : Divisor} (h : q.instr = .setBaud d) : q.cmd = .setBaud ∧ q.d = d := by
  unfold Seq.instr Cmd.instr at h
  split at h <;> simp_all

theorem instr_sendByte {q : Seq} {b : Byte} (h : q.instr = .sendByte b) : q.cmd = .sendByte ∧ q.b = b := by
  unfold Seq.instr Cmd.instr at h
  split at h <;> simp_all

theorem instr_tryReceive {q : Seq} (h : q.instr = .tryReceive) : q.cmd = .tryReceive := by
  unfold Seq.instr Cmd.instr at h
  split at h <;> simp_all

theorem instr_receiveByte {q : Seq} (h : q.instr = .receiveByte) : q.cmd = .receiveByte := by
  unfold Seq.instr Cmd.instr at h
  split at h <;> simp_all

theorem instr_pollStatus {q : Seq} (h : q.instr = .pollStatus) : q.cmd = .pollStatus := by
  unfold Seq.instr Cmd.instr at h
  split at h <;> simp_all

/-- The instruction of a running command depends on the command and the three latches alone. -/
theorem instr_congr {q q' : Seq} (hc : q'.cmd = q.cmd) (hd : q'.d = q.d) (hp : q'.p = q.p) (hb : q'.b = q.b) :
    q'.instr = q.instr := by
  simp [Seq.instr, hc, hd, hp, hb]

/-! ### Partial maps -/

section Maps
variable {α : Type}

/-- Every key of the map is above `k`. -/
def Above (k : Nat) (m : List (Nat × α)) : Prop := ∀ e ∈ m, k < e.1

theorem mapWf_cons {e : Nat × α} {m : List (Nat × α)} : MapWf (e :: m) ↔ Above e.1 m ∧ MapWf m := by
  simp [MapWf, Above, List.pairwise_cons]

theorem mem_of_mem_mapDel {k : Nat} {m : List (Nat × α)} {e : Nat × α} (h : e ∈ mapDel k m) : e ∈ m := by
  induction m with
  | nil => exact h
  | cons x m ih =>
    simp only [mapDel] at h
    split at h
    · exact List.mem_cons_of_mem _ h
    · rcases List.mem_cons.1 h with rfl | h'
      · exact List.mem_cons_self
      · exact List.mem_cons_of_mem _ (ih h')

theorem mem_of_mem_mapPut {k : Nat} {x : α} {m : List (Nat × α)} {e : Nat × α} (h : e ∈ mapPut k x m) :
    e = (k, x) ∨ e ∈ m := by
  induction m with
  | nil => simpa [mapPut] using h
  | cons y m ih =>
    simp only [mapPut] at h
    split at h
    · simpa using h
    · split at h
      · rcases List.mem_cons.1 h with h | h
        · exact .inl h
        · exact .inr (List.mem_cons_of_mem _ h)
      · rcases List.mem_cons.1 h with rfl | h
        · exact .inr List.mem_cons_self
        · exact (ih h).imp_right (List.mem_cons_of_mem _)

/-- Removing a key keeps the canonical form. -/
theorem mapDel_keeps_wf {m : List (Nat × α)} (k : Nat) (h : MapWf m) : MapWf (mapDel k m) := by
  induction m with
  | nil => exact h
  | cons x m ih =>
    obtain ⟨ha, hm⟩ := mapWf_cons.1 h
    simp only [mapDel]
    split
    · exact hm
    · exact mapWf_cons.2 ⟨fun e he => ha e (mem_of_mem_mapDel he), ih hm⟩

/-- Writing a key keeps the canonical form. -/
theorem mapPut_keeps_wf {m : List (Nat × α)} (k : Nat) (v : α) (h : MapWf m) : MapWf (mapPut k v m) := by
  induction m with
  | nil => simp [mapPut, MapWf]
  | cons x m ih =>
    obtain ⟨ha, hm⟩ := mapWf_cons.1 h
    simp only [mapPut]
    split
    · next lt =>
      refine mapWf_cons.2 ⟨fun e he => ?_, h⟩
      rcases List.mem_cons.1 he with rfl | he
      · exact lt
      · exact Nat.lt_trans lt (ha e he)
    · split
      · next eq => exact mapWf_cons.2 ⟨fun e he => by simpa [eq] using ha e he, hm⟩
      · next nlt ne =>
        refine mapWf_cons.2 ⟨fun e he => ?_, ih hm⟩
        rcases mem_of_mem_mapPut he with rfl | he
        · show x.1 < k
          omega
        · exact ha e he

/-- A write is read back. -/
@[simp] theorem mapGet_mapPut_self (k : Nat) (v : α) (m : List (Nat × α)) : mapGet k (mapPut k v m) = some v := by
  induction m with
  | nil => simp [mapPut, mapGet]
  | cons x m ih =>
    simp only [mapPut]
    split
    · simp [mapGet]
    · split
      · simp [mapGet]
      · next ne => simp [mapGet, ne, ih]

/-- A write leaves every other key alone. -/
theorem mapGet_mapPut_other {j k : Nat} (h : j ≠ k) (v : α) (m : List (Nat × α)) : mapGet j (mapPut k v m) = mapGet j m := by
  induction m with
  | nil => simp [mapPut, mapGet, Ne.symm h]
  | cons x m ih =>
    simp only [mapPut]
    split
    · simp [mapGet, Ne.symm h]
    · split
      · next eq => simp [mapGet, Ne.symm h, eq]
      · simp [mapGet, ih]

/-- A key the map's entries do not carry is absent. -/
theorem mapGet_eq_none {k : Nat} {m : List (Nat × α)} : mapGet k m = none ↔ ∀ e ∈ m, e.1 ≠ k := by
  induction m with
  | nil => simp [mapGet]
  | cons x m ih => by_cases h : x.1 = k <;> simp_all [mapGet]

theorem mem_of_mapGet {k : Nat} {v : α} {m : List (Nat × α)} (h : mapGet k m = some v) : (k, v) ∈ m := by
  induction m with
  | nil => simp [mapGet] at h
  | cons x m ih =>
    simp only [mapGet] at h
    split at h
    · next eq => cases h; subst eq; exact List.mem_cons_self
    · exact List.mem_cons_of_mem _ (ih h)

/-- In a canonical map every entry is what its key reads as. -/
theorem mapGet_of_mem {k : Nat} {v : α} {m : List (Nat × α)} (h : MapWf m) (hm : (k, v) ∈ m) : mapGet k m = some v := by
  induction m with
  | nil => cases hm
  | cons x m ih =>
    obtain ⟨ha, hw⟩ := mapWf_cons.1 h
    rcases List.mem_cons.1 hm with rfl | hm
    · simp [mapGet]
    · have := ha _ hm
      simp [mapGet, Nat.ne_of_lt this, ih hw hm]

/-- In a canonical map a removed key is absent. -/
theorem mapGet_mapDel_self {m : List (Nat × α)} (k : Nat) (h : MapWf m) : mapGet k (mapDel k m) = none := by
  induction m with
  | nil => rfl
  | cons x m ih =>
    obtain ⟨ha, hm⟩ := mapWf_cons.1 h
    simp only [mapDel]
    split
    · next eq => exact mapGet_eq_none.2 fun e he ne => by have := ha e he; omega
    · next ne => simp [mapGet, ne, ih hm]

/-- Removing a key leaves every other key alone. -/
theorem mapGet_mapDel_other {j k : Nat} (h : j ≠ k) (m : List (Nat × α)) : mapGet j (mapDel k m) = mapGet j m := by
  induction m with
  | nil => rfl
  | cons x m ih =>
    simp only [mapDel]
    split
    · next eq => simp [mapGet, eq, Ne.symm h]
    · simp [mapGet, ih]

end Maps

/-! ### Queues -/

/-- Replacing the last element of a non-empty queue keeps its length (R131, R251). -/
theorem length_replaceLast {q : List Byte} (h : q ≠ []) (b : Byte) : (replaceLast q b).length = q.length := by
  have := List.length_pos_iff.2 h
  simp [replaceLast]
  omega

@[simp] theorem replaceLast_ne_nil (q : List Byte) (b : Byte) : replaceLast q b ≠ [] := by simp [replaceLast]

end Sys2Proof.Machine
end

