-- ==== Sys2Proof/Laws/PerInstr.lean ====
section
/-! SUPPORT. Per instruction: its encoded word meets the match and mask of its row of spec/opcode_table.json. -/

namespace Sys2Proof.Laws.TableRow

/-- The match and mask columns of spec/opcode_table.json. -/
def row : Instr → Nat × Nat
  | .rdRbr => (0x000, 0xF00)
  | .wrThr _ => (0x800, 0xF00)
  | .rdDll => (0x000, 0xF00)
  | .wrDll _ => (0x800, 0xF00)
  | .rdIer => (0x100, 0xF00)
  | .wrIer _ => (0x900, 0xF00)
  | .rdDlh => (0x100, 0xF00)
  | .wrDlh _ => (0x900, 0xF00)
  | .rdIir => (0x200, 0xF00)
  | .wrFcr _ => (0xA00, 0xF00)
  | .rdLcr => (0x300, 0xF00)
  | .wrLcr _ => (0xB00, 0xF00)
  | .rdMcr => (0x400, 0xF00)
  | .wrMcr _ => (0xC00, 0xF00)
  | .rdLsr => (0x500, 0xF00)
  | .wrLsr _ => (0xD00, 0xF00)
  | .rdMsr => (0x600, 0xF00)
  | .wrMsr _ => (0xE00, 0xF00)
  | .rd7 => (0x700, 0xF00)
  | .wr7 _ => (0xF00, 0xF00)
  | .configure _ _ => (0x00780000, 0xFFF80000)
  | .setBaud _ => (0x10000000, 0xFFFF0000)
  | .sendByte _ => (0x20000000, 0xFFFFFF00)
  | .tryReceive => (0x30000000, 0xFFFFFFFF)
  | .receiveByte => (0x40000000, 0xFFFFFFFF)
  | .pollStatus => (0x50000000, 0xFFFFFFFF)

/-- The word meets the row under its mask. -/
def meets (w : InstrWord) (r : Nat × Nat) : Prop :=
  match w with
  | .bus w => w &&& BitVec.ofNat 12 r.2 = BitVec.ofNat 12 r.1
  | .cmd w => w &&& BitVec.ofNat 32 r.2 = BitVec.ofNat 32 r.1

/-- The encoding keeps the row's fixed bits, at every operand. -/
def Statement (i : Instr) : Prop := meets (encode i) (row i)

/-- A write's fixed bits are RW and OFF. -/
theorem busWrite_fixed (off : Offset) (b : Byte) : busWrite off b &&& BitVec.ofNat 12 0xF00 = 0x800#12 ||| (off.zeroExtend 12 <<< 8) := by
  ext i hi
  interval_cases i <;> simp [busWrite]

theorem rdRbr : Statement .rdRbr := by simp only [Statement, meets, encode, row]; decide
theorem wrThr (b : Byte) : Statement (.wrThr b) := (busWrite_fixed _ b).trans (by simp only [row]; decide)
theorem rdDll : Statement .rdDll := by simp only [Statement, meets, encode, row]; decide
theorem wrDll (b : Byte) : Statement (.wrDll b) := (busWrite_fixed _ b).trans (by simp only [row]; decide)
theorem rdIer : Statement .rdIer := by simp only [Statement, meets, encode, row]; decide
theorem wrIer (b : Byte) : Statement (.wrIer b) := (busWrite_fixed _ b).trans (by simp only [row]; decide)
theorem rdDlh : Statement .rdDlh := by simp only [Statement, meets, encode, row]; decide
theorem wrDlh (b : Byte) : Statement (.wrDlh b) := (busWrite_fixed _ b).trans (by simp only [row]; decide)
theorem rdIir : Statement .rdIir := by simp only [Statement, meets, encode, row]; decide
theorem wrFcr (b : Byte) : Statement (.wrFcr b) := (busWrite_fixed _ b).trans (by simp only [row]; decide)
theorem rdLcr : Statement .rdLcr := by simp only [Statement, meets, encode, row]; decide
theorem wrLcr (b : Byte) : Statement (.wrLcr b) := (busWrite_fixed _ b).trans (by simp only [row]; decide)
theorem rdMcr : Statement .rdMcr := by simp only [Statement, meets, encode, row]; decide
theorem wrMcr (b : Byte) : Statement (.wrMcr b) := (busWrite_fixed _ b).trans (by simp only [row]; decide)
theorem rdLsr : Statement .rdLsr := by simp only [Statement, meets, encode, row]; decide
theorem wrLsr (b : Byte) : Statement (.wrLsr b) := (busWrite_fixed _ b).trans (by simp only [row]; decide)
theorem rdMsr : Statement .rdMsr := by simp only [Statement, meets, encode, row]; decide
theorem wrMsr (b : Byte) : Statement (.wrMsr b) := (busWrite_fixed _ b).trans (by simp only [row]; decide)
theorem rd7 : Statement .rd7 := by simp only [Statement, meets, encode, row]; decide
theorem wr7 (b : Byte) : Statement (.wr7 b) := (busWrite_fixed _ b).trans (by simp only [row]; decide)
theorem configure (p : BitVec 3) (d : Divisor) : Statement (.configure p d) := by
  simp only [Statement, meets, encode, row]
  ext i hi
  interval_cases i <;> simp [cmdWord]
theorem setBaud (d : Divisor) : Statement (.setBaud d) := by
  simp only [Statement, meets, encode, row]
  ext i hi
  interval_cases i <;> simp [cmdWord]
theorem sendByte (b : Byte) : Statement (.sendByte b) := by
  simp only [Statement, meets, encode, row]
  ext i hi
  interval_cases i <;> simp [cmdWord]
theorem tryReceive : Statement .tryReceive := by simp only [Statement, meets, encode, row]; decide
theorem receiveByte : Statement .receiveByte := by simp only [Statement, meets, encode, row]; decide
theorem pollStatus : Statement .pollStatus := by simp only [Statement, meets, encode, row]; decide

end Sys2Proof.Laws.TableRow
end

