-- ==== Sys2Proof/Laws/Port.lean ====
section
/-! SUPPORT. The register port: which operation each access of a microprogram performs, and what an access leaves alone. -/

namespace Sys2Proof.Machine

/-- The port performs what exec performs: the two dispatches agree on register operations. -/
theorem execRegister_decodeBus (dlab : Bool) (w : BusWord) (s : State) :
    execRegister (decodeBus dlab w) s = exec (decodeBus dlab w) s := by
  unfold decodeBus
  split <;> first | rfl | (cases dlab <;> rfl)

theorem portAccess_eq_busTurn (w : BusWord) (s : State) : portAccess w s = busTurn w s := execRegister_decodeBus _ w s

/-! ### The accesses of the microprograms (R187, R227) -/

theorem decodeBus_busWrite (dlab : Bool) (off : Offset) (b : Byte) :
    decodeBus dlab (busWrite off b) =
      match off.getLsbD 2, off.getLsbD 1, off.getLsbD 0 with
      | false, false, false => if dlab then .wrDll b else .wrThr b
      | false, false, true  => if dlab then .wrDlh b else .wrIer b
      | false, true,  false => .wrFcr b
      | false, true,  true  => .wrLcr b
      | true,  false, false => .wrMcr b
      | true,  false, true  => .wrLsr b
      | true,  true,  false => .wrMsr b
      | true,  true,  true  => .wr7 b := by
  unfold decodeBus
  rw [busWrite_rw, busWrite_off2, busWrite_off1, busWrite_off0, busWrite_wdata]
  cases off.getLsbD 2 <;> cases off.getLsbD 1 <;> cases off.getLsbD 0 <;> rfl

@[simp] theorem regRead_lcr (s : State) : regRead offLcr s = execRdLcr s := rfl

@[simp] theorem regRead_lsr (s : State) : regRead offLsr s = execRdLsr s := rfl

@[simp] theorem regWrite_lcr (b : Byte) (s : State) : regWrite offLcr b s = execWrLcr b s := by
  unfold regWrite portAccess
  rw [decodeBus_busWrite]
  rfl

@[simp] theorem regWrite_fcr (b : Byte) (s : State) : regWrite offFcr b s = execWrFcr b s := by
  unfold regWrite portAccess
  rw [decodeBus_busWrite]
  rfl

theorem regRead_rx {s : State} (h : s.dev.dlab = false) : regRead offRxTx s = execRdRbr s := by
  unfold regRead portAccess
  rw [h]
  rfl

theorem regWrite_tx {s : State} (h : s.dev.dlab = false) (b : Byte) : regWrite offRxTx b s = execWrThr b s := by
  unfold regWrite portAccess
  rw [decodeBus_busWrite, h]
  rfl

theorem regWrite_ier {s : State} (h : s.dev.dlab = false) (b : Byte) : regWrite offIer b s = execWrIer b s := by
  unfold regWrite portAccess
  rw [decodeBus_busWrite, h]
  rfl

theorem regWrite_dll {s : State} (h : s.dev.dlab = true) (b : Byte) : regWrite offDll b s = execWrDll b s := by
  unfold regWrite portAccess
  rw [decodeBus_busWrite, h]
  rfl

theorem regWrite_dlh {s : State} (h : s.dev.dlab = true) (b : Byte) : regWrite offDlh b s = execWrDlh b s := by
  unfold regWrite portAccess
  rw [decodeBus_busWrite, h]
  rfl

/-! ### What an access leaves alone -/

/-- Nothing but the device, the port's answer, the draws and TRACE changes. -/
structure PortFrame (s t : State) : Prop where
  par      : t.par = s.par
  seq      : t.seq = s.seq
  arb      : t.arb = s.arb
  txlog    : t.ghost.txlog = s.ghost.txlog
  schedule : t.schedule = s.schedule

theorem readDone_frame {off : Offset} {v : Byte} {d : Dev} {s t : State} (h : readDone off v d s = .next t) : PortFrame s t := by
  cases h
  exact ⟨rfl, rfl, rfl, rfl, rfl⟩

theorem writeDone_frame {off : Offset} {b : Byte} {d : Dev} {s t : State} (h : writeDone off b d s = .next t) : PortFrame s t := by
  cases h
  exact ⟨rfl, rfl, rfl, rfl, rfl⟩

/-- A register operation that completes leaves the sequencer, the arbiter, TXLOG, the parameters and the schedule alone. -/
theorem execRegister_frame {i : Instr} {s t : State} (h : execRegister i s = .next t) : PortFrame s t := by
  cases i <;> simp only [execRegister] at h
  case rdRbr =>
    obtain ⟨-, h⟩ := selectedUnder_eq_next.1 h
    split at h
    · exact readDone_frame h
    · cases h; exact ⟨rfl, rfl, rfl, rfl, rfl⟩
  case wrThr =>
    obtain ⟨-, h⟩ := selectedUnder_eq_next.1 h
    split at h
    · exact writeDone_frame h
    · cases h; exact ⟨rfl, rfl, rfl, rfl, rfl⟩
  case rdDll => exact readDone_frame (selectedUnder_eq_next.1 h).2
  case wrDll => exact writeDone_frame (selectedUnder_eq_next.1 h).2
  case rdIer => exact readDone_frame (selectedUnder_eq_next.1 h).2
  case wrIer =>
    obtain ⟨-, h⟩ := selectedUnder_eq_next.1 h
    split at h
    · exact writeDone_frame h
    · cases h
  case rdDlh => exact readDone_frame (selectedUnder_eq_next.1 h).2
  case wrDlh => exact writeDone_frame (selectedUnder_eq_next.1 h).2
  case rdIir => cases h; exact ⟨rfl, rfl, rfl, rfl, rfl⟩
  case wrFcr =>
    unfold execWrFcr at h
    split at h
    · exact writeDone_frame h
    · cases h
  case rdLcr => exact readDone_frame h
  case wrLcr => exact writeDone_frame h
  case rdMcr => cases h; exact ⟨rfl, rfl, rfl, rfl, rfl⟩
  case wrMcr => cases h
  case rdLsr => cases h; exact ⟨rfl, rfl, rfl, rfl, rfl⟩
  case wrLsr => cases h
  case rdMsr => cases h; exact ⟨rfl, rfl, rfl, rfl, rfl⟩
  case wrMsr => cases h
  case rd7 => cases h
  case wr7 => cases h
  all_goals cases h

/-! ### A step, by whose turn it is -/

theorem step_nil {s : State} (h : s.schedule = []) : step s = ownTurn (beginTurn s) := by
  simp [step, turn, h]

theorem step_cons {s : State} {a : Action} {l : List Action} (h : s.schedule = a :: l) : step s = act a (beginTurn s) := by
  simp [step, turn, h]

end Sys2Proof.Machine
end

