-- ==== Sys2Proof/Laws/Step.lean ====
section
/-! SUPPORT. What each transition can do, said once: a register operation on the device, a micro-step of the running command, and one
step of the machine by whose turn it is. -/

namespace Sys2Proof.Machine

/-! ### Register operations -/

/-- The device facts of 10_state R40 (a), (b). -/
structure DevOk (p : Params) (d : Dev) : Prop where
  rx  : d.rxq.length ≤ d.cap p
  tx  : d.txq.length ≤ d.cap p
  ier : d.ier &&& 0xF8 = 0

theorem cap_pos {p : Params} (hp : p.wellFormed = true) (d : Dev) : 0 < d.cap p := by
  simp [Params.wellFormed] at hp
  unfold Dev.cap
  split <;> omega

theorem length_replaceLast_le {q : List Byte} {n : Nat} (h : q.length ≤ n) (hn : 0 < n) (b : Byte) :
    (replaceLast q b).length ≤ n := by
  simp [replaceLast]
  omega

theorem length_ite_le {q q' : List Byte} {n : Nat} (x : Bool) (h : q.length ≤ n) (h' : q'.length ≤ n) :
    (if x = true then q else q').length ≤ n := by
  cases x <;> assumption

/-- A queue cleared on a change of the enable fits the new capacity (R139). -/
theorem cleared_fits {p : Params} {d : Dev} {q : List Byte} (b : Byte) (c : Bool) (h : q.length ≤ d.cap p) :
    (if (b.getLsbD 0 != d.fifoEn || c) = true then [] else q).length ≤ (d.writeFcr b).cap p := by
  by_cases e : b.getLsbD 0 = d.fifoEn
  · have same : (d.writeFcr b).cap p = d.cap p := by simp only [Dev.cap, Dev.writeFcr, e]
    rw [same]
    split
    · simp
    · exact h
  · have flips : (b.getLsbD 0 != d.fifoEn) = true := by simpa [bne] using e
    rw [flips]
    simp

/-- A register operation that completes keeps the capacities and IER's reserved bits. -/
theorem execRegister_devOk {i : Instr} {s t : State} (hp : s.par.wellFormed = true) (hd : DevOk s.par s.dev)
    (h : execRegister i s = .next t) : DevOk s.par t.dev := by
  obtain ⟨rx, tx, ier⟩ := hd
  have hc := cap_pos hp s.dev
  cases i <;> simp only [execRegister] at h
  case rdRbr =>
    obtain ⟨-, h⟩ := selectedUnder_eq_next.1 h
    split at h
    · next hq => cases h; exact ⟨by rw [hq] at rx; exact Nat.le_of_succ_le rx, tx, ier⟩
    · cases h; exact ⟨rx, tx, ier⟩
  case wrThr b =>
    obtain ⟨-, h⟩ := selectedUnder_eq_next.1 h
    split at h
    · cases h
      refine ⟨rx, ?_, ier⟩
      show (s.dev.txq ++ [b]).length ≤ s.dev.cap s.par
      simp
      omega
    · cases h
      exact ⟨rx, length_ite_le _ tx (length_replaceLast_le tx hc b), ier⟩
  case wrIer b =>
    obtain ⟨-, h⟩ := selectedUnder_eq_next.1 h
    split at h
    · next w => cases h; exact ⟨rx, tx, by simpa [Instr.wellFormed] using w⟩
    · cases h
  case wrFcr b =>
    unfold execWrFcr at h
    split at h
    · cases h; exact ⟨cleared_fits b _ rx, cleared_fits b _ tx, ier⟩
    · cases h
  all_goals first
    | (cases h; exact ⟨rx, tx, ier⟩)
    | (cases (selectedUnder_eq_next.1 h).2; exact ⟨rx, tx, ier⟩)
    | cases h

/-- A register operation that completes appends one entry to TRACE (R151). -/
theorem execRegister_trace {i : Instr} {s t : State} (h : execRegister i s = .next t) :
    ∃ e, t.ghost.trace = s.ghost.trace ++ [e] := by
  cases i <;> simp only [execRegister] at h
  case rdRbr =>
    obtain ⟨-, h⟩ := selectedUnder_eq_next.1 h
    split at h <;> (cases h; exact ⟨_, rfl⟩)
  case wrThr b =>
    obtain ⟨-, h⟩ := selectedUnder_eq_next.1 h
    split at h <;> (cases h; exact ⟨_, rfl⟩)
  case wrIer b =>
    obtain ⟨-, h⟩ := selectedUnder_eq_next.1 h
    split at h <;> (cases h; try exact ⟨_, rfl⟩)
  case wrFcr b =>
    unfold execWrFcr at h
    split at h <;> (cases h; try exact ⟨_, rfl⟩)
  all_goals first
    | (cases h; exact ⟨_, rfl⟩)
    | (cases (selectedUnder_eq_next.1 h).2; exact ⟨_, rfl⟩)
    | cases h

/-! ### Micro-steps -/

/-- How a micro-step of the command running in `s` ends, `u` being the state after its register operation: inside the microprogram, or
with a response (R228, R229, R235). -/
def Continues (s u t : State) : Prop :=
  ∃ q : Seq, q.cmd = s.seq.cmd ∧ q.req = s.seq.req ∧ q.d = s.seq.d ∧ q.p = s.seq.p ∧ q.b = s.seq.b ∧
    ((q.phase = .busy ∧ q.step ≤ lastStep s.seq.cmd ∧ t = u.setSeq q) ∨
     (q.phase = .idle ∧ ∃ r : Response, r.wellFormed = true ∧
        t = (u.setArb { u.arb with resp := mapPut s.seq.req r u.arb.resp }).setSeq q))

/-- Whatever `k` does after an access of command `c`, it ends the micro-step so. -/
def EndsStep (c : Cmd) (k : State → Result) : Prop :=
  ∀ u t, u.seq.phase = .busy → u.seq.cmd = c → k u = .next t → Continues u u t

theorem goto_ends {c : Cmd} {k : Nat} (hk : k ≤ lastStep c) : EndsStep c (goto k) := by
  intro u t hb hc h
  cases h
  exact ⟨{ u.seq with step := k }, rfl, rfl, rfl, rfl, rfl, .inl ⟨hb, by rw [hc]; exact hk, rfl⟩⟩

theorem respond_ends (c : Cmd) {kind : RspKind} {v : Byte} (hw : kind = .data ∨ v = 0) : EndsStep c (respond kind v) := by
  intro u t _ _ h
  cases h
  refine ⟨{ u.seq with phase := .idle }, rfl, rfl, rfl, rfl, rfl, .inr ⟨rfl, ⟨kind, v⟩, ?_, rfl⟩⟩
  rcases hw with rfl | rfl <;> simp [Response.wellFormed]

theorem respondT_ends (c : Cmd) : EndsStep c respondT := fun u t hb hc h => respond_ends c (.inl rfl) u t hb hc h

theorem pollFailed_ends {c : Cmd} {k : Nat} (hk : k ≤ lastStep c) : EndsStep c (pollFailed k) := by
  intro u t hb hc h
  rcases pollFailed_cases k u with ⟨-, e⟩ | ⟨-, e⟩ <;> rw [e] at h
  · cases h
    exact ⟨{ u.seq with polls := u.seq.polls + 1, phase := .idle }, rfl, rfl, rfl, rfl, rfl, .inr ⟨rfl, ⟨.timeout, 0⟩, rfl, rfl⟩⟩
  · cases h
    exact ⟨{ u.seq with polls := u.seq.polls + 1, step := k }, rfl, rfl, rfl, rfl, rfl, .inl ⟨hb, by rw [hc]; exact hk, rfl⟩⟩

theorem ite_ends {c : Cmd} {k k' : State → Result} (test : State → Bool) (h : EndsStep c k) (h' : EndsStep c k') :
    EndsStep c (fun u => if test u = true then k u else k' u) := by
  intro u t hb hc e
  simp only at e
  split at e
  · exact h u t hb hc e
  · exact h' u t hb hc e

/-- One micro-step: one register operation, then the sequencer moves. -/
def MicroStep (s t : State) : Prop := ∃ w u, portAccess w s = .next u ∧ Continues s u t

theorem writeStep_micro {s t : State} {off : Offset} {b : Byte} {k : State → Result} (hb : s.seq.phase = .busy)
    (hk : EndsStep s.seq.cmd k) (h : writeStep off b k s = .next t) : MicroStep s t := by
  obtain ⟨u, hu, h⟩ := andThen_eq_next.1 h
  have f := (execRegister_frame hu).seq
  have c := hk u t (by rw [f]; exact hb) (by rw [f]) h
  refine ⟨_, u, hu, ?_⟩
  unfold Continues at c ⊢
  rw [f] at c
  exact c

theorem readStep_micro {s t : State} {off : Offset} {k : State → Result} (hb : s.seq.phase = .busy)
    (hk : EndsStep s.seq.cmd k) (h : readStep off k s = .next t) : MicroStep s t := by
  obtain ⟨u, hu, h⟩ := andThen_eq_next.1 h
  have f := (execRegister_frame hu).seq
  have c := hk (latchT u) t (by simp [f, hb]) (by simp [f]) h
  refine ⟨_, u, hu, ?_⟩
  unfold Continues at c ⊢
  simp only [latchT_seq, f] at c
  exact c

/-- A micro-step of the running command that completes is one register operation, after which the sequencer is inside the same
microprogram or has responded. -/
theorem exec_running_micro {s t : State} (hb : s.seq.phase = .busy) (h : exec s.seq.instr s = .next t) : MicroStep s t := by
  have e : s.seq.instr = s.seq.cmd.instr s.seq.d s.seq.p s.seq.b := rfl
  rw [e] at h
  have w : ∀ {off b k}, EndsStep s.seq.cmd k → writeStep off b k s = .next t → MicroStep s t := writeStep_micro hb
  have r : ∀ {off k}, EndsStep s.seq.cmd k → readStep off k s = .next t → MicroStep s t := readStep_micro hb
  cases hc : s.seq.cmd <;> rw [hc] at h w r <;> simp only [Cmd.instr, exec] at h
  · obtain ⟨-, h⟩ := whileRunning_eq_next.1 h
    split at h
    · exact w (goto_ends (by decide)) h
    · exact w (goto_ends (by decide)) h
    · exact w (goto_ends (by decide)) h
    · exact r (goto_ends (by decide)) h
    · exact w (goto_ends (by decide)) h
    · exact w (goto_ends (by decide)) h
    · exact w (respond_ends _ (.inr rfl)) h
    · cases h
  · obtain ⟨-, h⟩ := whileRunning_eq_next.1 h
    split at h
    · exact r (goto_ends (by decide)) h
    · exact w (goto_ends (by decide)) h
    · exact w (goto_ends (by decide)) h
    · exact w (goto_ends (by decide)) h
    · exact r (goto_ends (by decide)) h
    · exact w (respond_ends _ (.inr rfl)) h
    · cases h
  · obtain ⟨-, h⟩ := whileRunning_eq_next.1 h
    split at h
    · exact r (ite_ends (fun u => (lineStatus u.seq.t).txEmpty) (goto_ends (by decide)) (pollFailed_ends (by decide))) h
    · exact w (respond_ends _ (.inr rfl)) h
    · cases h
  · obtain ⟨-, h⟩ := whileRunning_eq_next.1 h
    split at h
    · exact r (ite_ends (fun u => (lineStatus u.seq.t).dataReady) (goto_ends (by decide)) (respond_ends _ (.inr rfl))) h
    · exact r (respondT_ends _) h
    · cases h
  · obtain ⟨-, h⟩ := whileRunning_eq_next.1 h
    split at h
    · exact r (ite_ends (fun u => (lineStatus u.seq.t).dataReady) (goto_ends (by decide)) (pollFailed_ends (by decide))) h
    · exact r (respondT_ends _) h
    · cases h
  · obtain ⟨-, h⟩ := whileRunning_eq_next.1 h
    split at h
    · exact r (respondT_ends _) h
    · cases h

/-! ### Steps -/

/-- Everything one step that completes can be, by the agent whose turn it is. -/
inductive Turn (s : State) : State → Prop where
  | quiet : s.schedule = [] → s.seq.phase = .idle → s.arb.pending = [] → Turn s (beginTurn s)
  | micro {t} : s.schedule = [] ∨ s.schedule.head? = some .microStep → s.seq.phase = .busy →
      exec s.seq.instr (beginTurn s) = .next t → Turn s t
  | submit {i w c} : s.schedule.head? = some (.submit i w) → cmdOf w = .ok c → s.maySubmit i = true →
      Turn s ((beginTurn s).setArb { s.arb with pending := mapPut i w s.arb.pending })
  | take {i r} : s.schedule.head? = some (.take i) → mapGet i s.arb.resp = some r →
      Turn s ((beginTurn s).setArb { s.arb with resp := mapDel i s.arb.resp })
  | grant {i w c} : s.schedule = [] ∨ s.schedule.head? = some (.grant i) → s.seq.phase = .idle →
      mapGet i s.arb.pending = some w → cmdOf w = .ok c →
      Turn s (((beginTurn s).setArb { s.arb with pending := mapDel i s.arb.pending }).setSeq (s.seq.load i c w))
  | rxArrive {b} : s.schedule.head? = some (.rxArrive b) → s.dev.rxq.length < s.dev.cap s.par →
      Turn s ((beginTurn s).setDev { s.dev with rxq := s.dev.rxq ++ [b] })
  | rxOverrun {b q} : s.schedule.head? = some (.rxOverrun b) → s.dev.rxq.length = s.dev.cap s.par →
      q = s.dev.rxq ∨ q = replaceLast s.dev.rxq b → Turn s ((beginTurn s).advance.setDev { s.dev with rxq := q })
  | txDrain {b q} : s.schedule.head? = some .txDrain → s.dev.txq = b :: q →
      Turn s (((beginTurn s).logTx b).setDev { s.dev with txq := q })
  | port {w t} : soleOwner s.schedule = false → busTurn w (beginTurn s) = .next t → Turn s t
  | reset : s.schedule.head? = some .reset → Turn s (takeReset (beginTurn s))

/-- The arbiter's own choice is a requester with a pending word, whatever the free value is (R234). -/
theorem pickPending_mem (e : Nat × CmdWord) (m : List (Nat × CmdWord)) (n : Nat) : ∃ w, (pickPending e m n, w) ∈ e :: m := by
  have h : Config.grantChoice n % (e :: m).length < (e :: m).length := Nat.mod_lt _ (by simp)
  refine ⟨((e :: m)[Config.grantChoice n % (e :: m).length]'h).2, ?_⟩
  rw [pickPending, List.getD_eq_getElem _ _ h]
  exact List.getElem_mem h

theorem grant_turn {s t : State} {i : Nat} (hs : s.schedule = [] ∨ s.schedule.head? = some (.grant i))
    (h : grant i (beginTurn s) = .next t) : Turn s t := by
  unfold grant at h
  simp only [beginTurn_seq, beginTurn_arb] at h
  split at h
  · next hp hg =>
    split at h
    · cases h
    · next hc => cases h; exact .grant hs hp hg hc
  · cases h
  · cases h

theorem microStep_turn {s t : State} (hs : s.schedule = [] ∨ s.schedule.head? = some .microStep)
    (h : microStep (beginTurn s) = .next t) : Turn s t := by
  unfold microStep at h
  simp only [beginTurn_seq] at h
  split at h
  · next hp => exact .micro hs hp h
  · cases h

/-- A step that completes is one of these turns. -/
theorem step_turn {s t : State} (h : step s = .next t) : Turn s t := by
  cases hs : s.schedule with
  | nil =>
    rw [step_nil hs] at h
    unfold ownTurn at h
    simp only [beginTurn_seq, beginTurn_arb] at h
    split at h
    · exact microStep_turn (.inl hs) h
    · next hp ha => cases h; exact .quiet hs hp ha
    · exact grant_turn (.inl hs) h
  | cons a l =>
    rw [step_cons hs] at h
    have hh : s.schedule.head? = some a := by simp [hs]
    cases a <;> simp only [act] at h
    case submit =>
      unfold submit at h
      split at h
      · cases h
      · next hc =>
        split at h
        · next hm => cases h; exact .submit hh hc hm
        · cases h
    case take =>
      unfold take at h
      split at h
      · cases h
      · next hr => cases h; exact .take hh hr
    case grant => exact grant_turn (.inr hh) h
    case microStep => exact microStep_turn (.inr hh) h
    case rxArrive =>
      unfold rxArrive at h
      split at h
      · next hl => cases h; exact .rxArrive hh hl
      · cases h
    case rxOverrun =>
      unfold rxOverrun at h
      split at h
      · next hl =>
        cases h
        refine .rxOverrun hh hl ?_
        split
        · exact .inl rfl
        · exact .inr rfl
      · cases h
    case txDrain =>
      unfold txDrain at h
      split at h
      · cases h
      · next hq => cases h; exact .txDrain hh hq
    case raw => exact .port (by simp [hs, soleOwner]) h
    case access =>
      split at h
      · cases h
      · exact .port (by simp [hs, soleOwner]) h
      · exact .port (by simp [hs, soleOwner]) h
    case reset => cases h; exact .reset hh

end Sys2Proof.Machine
end

