-- ==== Sys2Proof/Tests/Slice0.lean ====
section
/-! SUPPORT. Tests: the checks refuse ill-formed terms; words written out from the spec's encodings decode as the spec says; single steps
against the vectors of spec/95_test_vectors.md (VA, VB, VC, VD, VE, VI); and for every statement with hypotheses a state and operands that
meet them. -/

namespace Sys2Proof.Tests

open Sys2Proof Sys2Proof.Machine Host.Outcome

/-! ### Helpers -/

/-- A device in Normal mode (`lcr` 03) or any other, FIFO on or off, with the queues and registers the vector names. -/
def dev (lcr : Byte) (fifo : Bool) (rxq txq : List Byte) : Dev :=
  { rxq := rxq, txq := txq, ier := 0x05, fifoEn := fifo, rxTrig := 0b11, lcr := lcr, dll := 0x03, dlh := 0x01, baudActive := 0x0003 }

/-- An idle block with that device. -/
def idle (d : Dev) : State := { State.reset with dev := d }

/-- A block about to perform micro-step `k` of `c` for requester 0. -/
def busy (c : Cmd) (k : Nat) (t : Byte) (d : Dev) : State :=
  { idle d with seq := { phase := .busy, cmd := c, req := 0, step := k, d := 0x01A1, p := 0b101, b := 0x48, t := t, polls := 0 } }

/-- The same block with turns to come. -/
def turns (l : List Action) (s : State) : State := { s with schedule := l }

/-- What `f` reads off the next state, if there is one. -/
def after {α : Type} (f : State → α) (o : Result) : Option α :=
  match o with
  | .next s    => some (f s)
  | .fault _   => none
  | .refused _ => none

/-! ### The checks refuse ill-formed terms -/

/-- VC6, VB8 and the malformed words of family D: a wrong fixed field, a must-be-zero bit, a reserved opcode. -/
theorem smoke_command_words :
    ([0x00580003, 0x00600003, 0x00000003, 0x00F80003, 0x08780003, 0x100101A1, 0x180001A1, 0x20000148, 0x30000001, 0x40000100, 0x50010000,
      0x60000000, 0xF0000000] : List CmdWord).all (fun w => !CmdWord.wellFormed w) = true := by decide

/-- R93, R95: one reserved bit of IER or FCR. -/
theorem smoke_operands :
    (Instr.wrIer 0x08).wellFormed = false ∧ (Instr.wrIer 0x80).wellFormed = false ∧ (Instr.wrFcr 0x08).wellFormed = false ∧
    (Instr.wrFcr 0x20).wellFormed = false ∧ (Instr.wrIer 0x07).wellFormed = true ∧ (Instr.wrFcr 0xC7).wellFormed = true := by decide

/-- R112: only DATA carries a byte. -/
theorem smoke_response : (Response.mk .noData 0x41).wellFormed = false ∧ decodeRsp 0x241 = none ∧ decodeRsp 0x301 = none := by decide

/-- R5: FIFO_DEPTH below 14, no requester, POLL_LIMIT some 0, a reset image past the capacity or with a reserved IER bit. -/
theorem smoke_params :
    ({ Params.defaults with fifoDepth := 13 }).wellFormed = false ∧ ({ Params.defaults with nReq := 0 }).wellFormed = false ∧
    ({ Params.defaults with pollLimit := some 0 }).wellFormed = false ∧
    (ResetImage.wellFormed { ResetImage.decided with rxq := [0x41, 0x42] } 16) = false ∧
    (ResetImage.wellFormed { ResetImage.decided with ier := 0x08 } 16) = false ∧ Params.defaults.wellFormed = true := by decide

/-! ### Decoding: words written out from R91, R92, R104, R105 -/

theorem test_decode_normal_words :
    decodeBus false 0b000000000000 = .rdRbr ∧ decodeBus false 0b100001001000 = .wrThr 0x48 ∧ decodeBus false 0b000100000000 = .rdIer ∧
    decodeBus false 0b100100000111 = .wrIer 0x07 ∧ decodeBus false 0b001000000000 = .rdIir ∧ decodeBus false 0b101011000111 = .wrFcr 0xC7 ∧
    decodeBus false 0b001100000000 = .rdLcr ∧ decodeBus false 0b101110000011 = .wrLcr 0x83 := by decide

theorem test_decode_upper_offsets :
    decodeBus true 0b010000000000 = .rdMcr ∧ decodeBus true 0b110000001011 = .wrMcr 0x0B ∧ decodeBus true 0b010100000000 = .rdLsr ∧
    decodeBus true 0b110100000000 = .wrLsr 0x00 ∧ decodeBus true 0b011000000000 = .rdMsr ∧ decodeBus true 0b111000000000 = .wrMsr 0x00 ∧
    decodeBus true 0b011100000000 = .rd7 ∧ decodeBus true 0b111101011010 = .wr7 0x5A := by decide

/-- The mode-multiplexed pairs: the same words reach the divisor latch. -/
theorem test_decode_divisor_words :
    decodeBus true 0b000000000000 = .rdDll ∧ decodeBus true 0b100010100001 = .wrDll 0xA1 ∧ decodeBus true 0b000100000000 = .rdDlh ∧
    decodeBus true 0b100100000001 = .wrDlh 0x01 := by decide

theorem test_decode_commands :
    decodeCmd 0b00000000011111010000000110100001 = .ok (.configure 0b101 0x01A1) ∧
    decodeCmd 0b00010000000000000000000110100001 = .ok (.setBaud 0x01A1) ∧
    decodeCmd 0b00100000000000000000000001001000 = .ok (.sendByte 0x48) ∧
    decodeCmd 0b00110000000000000000000000000000 = .ok .tryReceive ∧
    decodeCmd 0b01000000000000000000000000000000 = .ok .receiveByte ∧
    decodeCmd 0b01010000000000000000000000000000 = .ok .pollStatus := by decide

theorem test_decode_rejects :
    decodeCmd 0x00580003 = .error .wordLengthNotEight ∧ decodeCmd 0x00600003 = .error .triggerNotFourteen ∧
    decodeCmd 0x100101A1 = .error .mustBeZero ∧ decodeCmd 0xF0000000 = .error .reservedOpcode := by decide

/-- R112 and the header of 95_test_vectors: DONE 000, DATA,41 141, NO_DATA 200, TIMEOUT 300. -/
theorem test_response_words :
    encodeRsp ⟨.done, 0⟩ = 0x000 ∧ encodeRsp ⟨.data, 0x41⟩ = 0x141 ∧ encodeRsp ⟨.noData, 0⟩ = 0x200 ∧ encodeRsp ⟨.timeout, 0⟩ = 0x300 := by
  decide

theorem test_decodeTableWord :
    decodeTableWord 16 0xB83 = some (.wrLcr 0x83) ∧ decodeTableWord 32 0x20000048 = some (.sendByte 0x48) ∧
    decodeTableWord 32 0x60000000 = none := by decide

/-! ### Register operations (family A) -/

theorem test_VA1 : after (fun s => (s.rdata, s.dev.rxq, s.dev.dataReady)) (exec .rdRbr (idle (dev 0x03 true [0x41, 0x42] []))) =
    some (0x41, [0x42], true) := by decide
theorem test_VA2 : after (fun s => (s.rdata, s.dev.rxq, s.dev.dataReady)) (exec .rdRbr (idle (dev 0x03 true [0x41] []))) =
    some (0x41, [], false) := by decide
theorem test_VA4 : after (fun s => (s.dev.txq, s.dev.txEmpty)) (exec (.wrThr 0x48) (idle (dev 0x03 true [] []))) = some ([0x48], false) := by
  decide
theorem test_VA5 : after (fun s => s.dev.txq) (exec (.wrThr 0x69) (idle (dev 0x03 true [] [0x48]))) = some [0x48, 0x69] := by decide
theorem test_VA8 : after (fun s => (s.rdata, s.dev)) (exec .rdDll (idle (dev 0x83 true [0x41] []))) =
    some (0x03, dev 0x83 true [0x41] []) := by decide
theorem test_VA9 : after (fun s => (s.dev.dll, s.dev.baudActive, s.dev.txq)) (exec (.wrDll 0xA1) (idle (dev 0x83 true [] []))) =
    some (0xA1, 0x01A1, []) := by decide
theorem test_VA10 : after (fun s => (s.rdata, s.dev)) (exec .rdIer (idle (dev 0x03 true [] []))) = some (0x05, dev 0x03 true [] []) := by decide
theorem test_VA11 : after (fun s => s.dev.ier) (exec (.wrIer 0x07) (idle (dev 0x03 true [] []))) = some 0x07 := by decide
theorem test_VA12 : exec (.wrIer 0x08) (idle (dev 0x03 true [] [])) = refused .reservedIerBits := by rfl
theorem test_VA14 : after (fun s => (s.rdata, s.dev)) (exec .rdDlh (idle (dev 0x83 true [] []))) = some (0x01, dev 0x83 true [] []) := by decide
/-- The divisor in use moves only with the parameter: 0003, or {02, 03}. -/
theorem test_VA15 :
    after (fun s => (s.dev.dlh, s.dev.ier, s.dev.baudActive)) (exec (.wrDlh 0x02) (idle (dev 0x83 true [] []))) = some (0x02, 0x05, 0x0003) ∧
    after (fun s => s.dev.baudActive)
      (exec (.wrDlh 0x02) { idle (dev 0x83 true [] []) with par := { Params.defaults with dlhWriteApplies := true } }) = some 0x0203 := by decide
theorem test_VA17 : after (fun s => s.dev) (exec .rdIir (idle (dev 0x03 true [0x41] []))) = some (dev 0x03 true [0x41] []) := by decide
theorem test_VA20 : after (fun s => (s.dev.rxq, s.dev.txq)) (exec (.wrFcr 0xC3) (idle (dev 0x03 true [0x41, 0x42] [0x48]))) =
    some ([], [0x48]) := by decide
theorem test_VA22 : after (fun s => (s.dev.fifoEn, s.dev.rxTrig, s.dev.rxq, s.dev.txq, s.dev.cap s.par))
    (exec (.wrFcr 0x00) (idle (dev 0x03 true [0x41, 0x42] [0x48]))) = some (false, 0b00, [], [], 1) := by decide
theorem test_VA28 : after (fun s => s.rdata) (exec .rdLcr (idle (dev 0x83 true [] []))) = some 0x83 := by decide
theorem test_VA31 : after (fun s => (s.dev.lcr, s.dev.mode)) (exec (.wrLcr 0x1B) (idle (dev 0x03 true [] []))) = some (0x1B, .normal) := by decide
theorem test_VA32 : after (fun s => (s.dev.lcr, s.dev.mode)) (exec (.wrLcr 0xFF) (idle (dev 0x03 true [] []))) =
    some (0xFF, .divisorAccess) := by decide
theorem test_VA33 : after (fun s => s.dev) (exec .rdMcr (idle (dev 0x03 true [] []))) = some (dev 0x03 true [] []) := by decide
theorem test_VA34 : exec (.wrMcr 0x0B) (idle (dev 0x03 true [] [])) = refused .modemControlWrite := by rfl
/-- VA35 to VA38, for every value of the six reserved bits. -/
theorem test_VA35 : ∀ f : Byte,
    (dev 0x03 true [] []).lsr f &&& 0x21 = 0x20 ∧ (dev 0x83 true [0x41] []).lsr f &&& 0x21 = 0x21 ∧
    (dev 0x03 true [] [0x48]).lsr f &&& 0x21 = 0x00 ∧ (dev 0x03 true [0x41] [0x48]).lsr f &&& 0x21 = 0x01 := by decide
/-- The six other bits are passed through: the 9F of VD19. -/
theorem test_rdLsr : (dev 0x03 true [0x41] [0x48]).lsr 0xBE = 0x9F ∧
    after (fun s => s.dev) (exec .rdLsr (idle (dev 0x83 true [0x41] []))) = some (dev 0x83 true [0x41] []) := by decide
theorem test_VA40 : exec (.wrLsr 0x00) (idle (dev 0x03 true [] [])) = refused .lineStatusWrite := by rfl
theorem test_VA41 : after (fun s => s.dev) (exec .rdMsr (idle (dev 0x03 true [] []))) = some (dev 0x03 true [] []) := by decide
theorem test_VA42 : exec (.wrMsr 0x00) (idle (dev 0x03 true [] [])) = refused .modemStatusWrite := by rfl
theorem test_VA43 : exec .rd7 (idle (dev 0x03 true [] [])) = refused .offset7Read := by rfl
theorem test_VA44 : exec (.wr7 0x5A) (idle (dev 0x03 true [] [])) = refused .offset7Write := by rfl

/-! ### Commands (families B, C, D), one micro-step each -/

theorem test_VC2_C0 : after (fun s => (s.dev.lcr, s.seq.step, s.ghost.trace)) (exec (.configure 0b101 0x01A1) (busy .configure 0 0 (dev 0x9B false [0x41] [0x48]))) =
    some (0x83, 1, [⟨.write, 3, 0x83, .divisorAccess⟩]) := by decide
theorem test_VC2_C6 : after (fun s => (s.dev.ier, s.seq.phase, s.arb.resp)) (exec (.configure 0b101 0x01A1) (busy .configure 6 0x83 (dev 0x03 true [] []))) =
    some (0x05, .idle, [(0, ⟨.done, 0x00⟩)]) := by decide
/-- VB5, B1: bits 6:2 of LCR are kept. -/
theorem test_VB5_B1 : after (fun s => (s.dev.lcr, s.seq.step)) (exec (.setBaud 0x01A1) (busy .setBaud 1 0x1B (dev 0x1B true [] []))) = some (0x9B, 2) := by
  decide
theorem test_VB1_B3 : after (fun s => (s.dev.dll, s.dev.baudActive, s.ghost.trace)) (exec (.setBaud 0x01A1) (busy .setBaud 3 0x03 (dev 0x83 true [] []))) =
    some (0xA1, 0x01A1, [⟨.write, 0, 0xA1, .divisorAccess⟩]) := by decide
theorem test_VD1_S1 : after (fun s => (s.dev.txq, s.arb.resp, s.ghost.trace)) (exec (.sendByte 0x48) (busy .sendByte 1 0x20 (dev 0x03 true [] []))) =
    some ([0x48], [(0, ⟨.done, 0x00⟩)], [⟨.write, 0, 0x48, .normal⟩]) := by decide
/-- VD6 at its last poll: POLL_LIMIT some 3, two polls failed already. -/
theorem test_VD6 : after (fun s => (s.seq.phase, s.arb.resp, s.dev.txq)) (pollFailed 0 (let s := busy .sendByte 0 0 (dev 0x03 true [] [0x48])
      { s with par := { s.par with pollLimit := some 3 }, seq := { s.seq with polls := 2 } })) =
    some (.idle, [(0, ⟨.timeout, 0x00⟩)], [0x48]) := by decide
theorem test_VD10_T1 : after (fun s => (s.dev.rxq, s.arb.resp)) (exec .tryReceive (busy .tryReceive 1 0x21 (dev 0x03 true [0x41, 0x42, 0x43] []))) =
    some ([0x42, 0x43], [(0, ⟨.data, 0x41⟩)]) := by decide
theorem test_VD14_V1 : after (fun s => (s.dev.rxq, s.arb.resp)) (exec .receiveByte (busy .receiveByte 1 0x21 (dev 0x03 true [0x41] []))) =
    some ([], [(0, ⟨.data, 0x41⟩)]) := by decide
theorem test_VD17 : after (fun s => (s.dev, s.seq.phase)) (exec .pollStatus (busy .pollStatus 0 0 (dev 0x03 true [0x41] []))) =
    some (dev 0x03 true [0x41] [], .idle) := by decide

/-! ### Arbiter, line agent, outputs, reset (families D, E, I, F) -/

/-- VD20: requester 0 has a response it has not taken. -/
theorem test_VD20 : step (turns [.submit 0 0x20000069] { idle (dev 0x03 true [] []) with arb := ⟨[], [(0, ⟨.done, 0⟩)]⟩ }) =
    fault .submitNotEnabled := by rfl
theorem test_grant : after (fun s => (s.seq.cmd, s.seq.b, s.seq.phase, s.arb.pending))
    (step (turns [.grant 0] { idle (dev 0x03 true [] []) with arb := ⟨[(0, 0x20000048)], []⟩ })) = some (.sendByte, 0x48, .busy, []) := by decide
theorem test_VE1 : after (fun s => s.dev.rxq) (step (turns [.rxArrive 0x41] (idle (dev 0x03 false [] [])))) = some [0x41] ∧
    step (turns [.rxArrive 0x42] (idle (dev 0x03 false [0x41] []))) = fault .rxArriveNotEnabled := ⟨by decide, rfl⟩
theorem test_VE5 : after (fun s => (s.dev.txq, s.ghost.txlog)) (step (turns [.txDrain] (idle (dev 0x03 true [] [0x48, 0x69])))) =
    some ([0x69], [0x48]) ∧ step (turns [.txDrain] (idle (dev 0x03 true [] []))) = fault .txDrainNotEnabled := ⟨by decide, rfl⟩
/-- VI2 to VI7. -/
theorem test_VI : ∀ ls : Bool,
    ({ dev 0x03 true (List.replicate 13 0x41) [] with ier := 0x01 }).irq ls = false ∧
    ({ dev 0x03 true (List.replicate 14 0x41) [] with ier := 0x01 }).irq ls = true ∧
    ({ dev 0x03 false [0x41] [] with ier := 0x01 }).irq ls = true ∧ ({ dev 0x03 false [] [] with ier := 0x01 }).irq ls = false ∧
    ({ dev 0x03 true [] [] with ier := 0x02 }).irq ls = true ∧ ({ dev 0x03 true [] [0x48] with ier := 0x02 }).irq ls = false := by decide
/-- R302: reset while SET_BAUD is in DivisorAccess. -/
theorem test_reset_in_command : after (fun s => (s.dev.lcr, s.seq.phase, s.arb)) (step (turns [.reset] (busy .setBaud 3 0x03 (dev 0x83 true [] [])))) =
    some (0x00, .idle, ⟨[], []⟩) := by decide
theorem test_placed_word : after (fun s => s.dev.lcr) (step (State.reset.withFetchWord 16 0xB83)) = some 0x83 ∧
    after (fun s => (s.dev.lcr, s.seq.step)) (step (State.reset.withFetchWord 32 0x00780003)) = some (0x83, 1) := by decide

/-! ### Witnesses: every statement's hypotheses can be met -/

/-- Both access modes, for the statements that assume one. -/
theorem witness_modes : (idle (dev 0x03 true [] [])).dev.dlab = false ∧ (idle (dev 0x83 true [] [])).dev.dlab = true := by decide

theorem witness_DecodeEncodeAgree :
    (Instr.configure 0b101 0x01A1).selectedBy = none ∧ (Instr.wrDll 0xA1).selectedBy = some true ∧
    (Instr.wrThr 0x48).selectedBy = some false := by decide

theorem witness_EncodeDecodeCanonical :
    decode true (.bus 0x0FF) = .ok .rdDll ∧ decode false (.cmd 0x007FFFFF) = .ok (.configure 0b111 0xFFFF) := by decide

theorem witness_CommandWordsAreExactlyTheTableRows :
    CmdWord.wellFormed 0x200000FF = true ∧ CmdWord.wellFormed 0x20000100 = false ∧
    (turns [.submit 0 0x20000100] State.reset).schedule = [.submit 0 0x20000100] := by decide

theorem witness_OffsetDecodeTable : ∀ off : Offset,
    BusWord.isWrite (busRead off) = false ∧ BusWord.off (busRead off) = off ∧
    BusWord.isWrite (busWrite off 0xFF) = true ∧ BusWord.off (busWrite off 0xFF) = off := by decide

theorem witness_ResponseWordsRoundTrip :
    (Response.mk .data 0xFF).wellFormed = true ∧ (Response.mk .timeout 0x00).wellFormed = true ∧
    decodeRsp 0x1FF = some ⟨.data, 0xFF⟩ ∧ decodeRsp 0x300 = some ⟨.timeout, 0x00⟩ := by decide

/-- A last byte, an empty queue, and a completed read. -/
theorem witness_ReadRxTakesOldestByte :
    (dev 0x03 true [0x41] []).rxq = 0x41 :: [] ∧ (dev 0x03 true [] []).rxq = [] ∧
    ∃ t, exec .rdRbr (idle (dev 0x03 true [] [])) = next t := ⟨rfl, rfl, _, rfl⟩

/-- Room for one more byte, and none left, with the FIFO on (capacity 16) and off (capacity 1). -/
theorem witness_WriteTxAppends :
    (dev 0x03 true [] (List.replicate 15 0x48)).txq.length < (dev 0x03 true [] (List.replicate 15 0x48)).cap Params.defaults ∧
    (dev 0x03 true [] (List.replicate 16 0x48)).cap Params.defaults ≤ (dev 0x03 true [] (List.replicate 16 0x48)).txq.length ∧
    (dev 0x03 false [] [0x48]).cap Params.defaults ≤ (dev 0x03 false [] [0x48]).txq.length ∧
    0 < (dev 0x03 false [] [0x48]).cap Params.defaults ∧
    ∃ t, exec (.wrThr 0x69) (idle (dev 0x03 false [] [0x48])) = next t := ⟨by decide, by decide, by decide, by decide, _, rfl⟩

theorem witness_WriteDlhFillsLatch :
    (idle (dev 0x83 true [] [])).par.dlhWriteApplies = false ∧ ({ Params.defaults with dlhWriteApplies := true }).dlhWriteApplies = true := by
  decide

/-- The invariant holds of a concrete running block, in DivisorAccess at B2 of SET_BAUD. -/
theorem inv_busy : Inv (busy .setBaud 2 0x03 (dev 0x83 true [0x41] [0x48])) :=
  ⟨by decide, by decide, by decide, by decide, by decide, by decide, by decide, by decide⟩

theorem witness_ReadIerAnswersIer :
    Inv (idle (dev 0x03 true [] [])) ∧ ∃ t, exec .rdIer (idle (dev 0x03 true [] [])) = next t :=
  ⟨⟨by decide, by decide, by decide, by decide, by decide, by decide, by decide, by decide⟩, _, rfl⟩

/-- The last legal byte and the first that is not. -/
theorem witness_WriteIerStoresEnables :
    (0x07 : Byte).toNat < 8 ∧ 8 ≤ (0x08 : Byte).toNat ∧ ∃ t, exec (.wrIer 0) (idle (dev 0x03 true [] [])) = next t :=
  ⟨by decide, by decide, _, rfl⟩

theorem witness_WriteFcrControlsFifo :
    (0x20 : Byte).extractLsb' 3 3 ≠ 0 ∧ (0x08 : Byte).extractLsb' 3 3 ≠ 0 ∧ (0xC7 : Byte).extractLsb' 3 3 = 0 ∧
    (0xC7 : Byte).getLsbD 1 = true ∧ (0xC7 : Byte).getLsbD 2 = true := by decide

theorem witness_ReadLcrAnswersLcr : ∃ t, exec (.wrLcr 0x83) (idle (dev 0x03 true [] [])) = next t := ⟨_, rfl⟩

theorem witness_WriteLcrSetsMode : ∃ t, exec (decodeBus (dev 0x83 true [] []).dlab 0xB03) (idle (dev 0x83 true [] [])) = next t ∧
    t.dev.lcr ≠ (dev 0x83 true [] []).lcr := ⟨_, rfl, by decide⟩

/-- An operation in the mode that does not select it, both ways round. -/
theorem witness_UnselectedOperationStops :
    Instr.rdRbr.selectedBy = some false ∧ (dev 0x83 true [] []).dlab ≠ false ∧
    Instr.rdDlh.selectedBy = some true ∧ (dev 0x03 true [] []).dlab ≠ true := by decide

theorem witness_EveryOperationIsRecorded :
    (∃ t, exec (decodeBus (dev 0x83 true [] []).dlab 0x8FF) (idle (dev 0x83 true [] [])) = next t) ∧
    ∃ t, exec (decodeBus (dev 0x03 true [] []).dlab 0x600) (idle (dev 0x03 true [] [])) = next t := ⟨⟨_, rfl⟩, _, rfl⟩

theorem witness_StepRunsBusWord : (turns [.raw 0xB83] (idle (dev 0x03 true [] []))).schedule = .raw 0xB83 :: [] := by rfl

theorem witness_StepRunsRunningCommand :
    (busy .sendByte 1 0x20 (dev 0x03 true [] [])).seq.phase = .busy ∧ (busy .sendByte 1 0x20 (dev 0x03 true [] [])).schedule = [] ∧
    ∃ l, (turns [.microStep] (busy .sendByte 1 0x20 (dev 0x03 true [] []))).schedule = .microStep :: l := ⟨rfl, rfl, _, rfl⟩

theorem witness_PlacedWordRunsNext :
    State.reset.dev.dlab = false ∧ decodeTableWord 16 0xFFF = some (.wr7 0xFF) ∧
    decodeTableWord 32 0x50000000 = some .pollStatus := by decide

theorem witness_QuietBlockStaysIdle : State.reset.seq.phase = .idle ∧ State.reset.arb.pending = [] ∧ State.reset.schedule = [] := by decide

/-- The first and the last register of the window, and the first address past it. -/
theorem witness_WindowAddressesReachRegisters :
    Config.uartBase + 7 = Config.uartBase + (7 : Offset).toNat ∧ Config.uartBase + 0 = Config.uartBase + (0 : Offset).toNat ∧
    Config.uartBase + 8 ≤ Config.uartBase + 8 ∧
    (turns [.access .read (Config.uartBase + 8) 0] State.reset).schedule = .access .read (Config.uartBase + 8) 0 :: [] :=
  ⟨rfl, rfl, Nat.le_refl _, rfl⟩

/-! #### Commands -/

theorem witness_SetBaudMicroSteps :
    (∀ k, (busy .setBaud k 0x03 (dev 0x83 true [] [])).atStep (.setBaud 0x01A1) k) ∧
    (busy .setBaud 2 0x03 (dev 0x83 true [] [])).dev.dlab = true := ⟨fun _ => ⟨rfl, rfl, rfl⟩, by decide⟩

theorem witness_SetBaudCompletes : (busy .setBaud 0 0 (dev 0x1B true [0x41] [0x48])).atStep (.setBaud 0x01A1) 0 := ⟨rfl, rfl, rfl⟩

theorem witness_EnterAndExitKeepOtherLcrBits :
    (busy .setBaud 0 0 (dev 0x1B true [] [])).atStep (.setBaud 0x01A1) 0 ∧
    (busy .setBaud 4 0x1B (dev 0x9B true [] [])).atStep (.setBaud 0x01A1) 4 := ⟨⟨rfl, rfl, rfl⟩, rfl, rfl, rfl⟩

theorem witness_ConfigureMicroSteps :
    (∀ k, (busy .configure k 0x83 (dev 0x83 true [] [])).atStep (.configure 0b101 0x01A1) k) ∧
    (busy .configure 1 0 (dev 0x83 true [] [])).dev.dlab = true ∧ (busy .configure 6 0x83 (dev 0x03 true [] [])).dev.dlab = false :=
  ⟨fun _ => ⟨rfl, rfl, rfl⟩, by decide, by decide⟩

theorem witness_ConfigureCompletes : (busy .configure 0 0 (dev 0x9B false [0x41] [0x48])).atStep (.configure 0b101 0x01A1) 0 := ⟨rfl, rfl, rfl⟩

theorem witness_SendByteCompletes :
    (∀ k, (busy .sendByte k 0x20 (dev 0x03 true [] [])).atStep (.sendByte 0x48) k) ∧
    (busy .sendByte 0 0 (dev 0x03 true [] [])).dev.dlab = false ∧ (busy .sendByte 0 0 (dev 0x03 true [] [])).dev.txq = [] ∧
    0 < (busy .sendByte 0 0 (dev 0x03 true [] [])).dev.cap Params.defaults := ⟨fun _ => ⟨rfl, rfl, rfl⟩, by decide, rfl, by decide⟩

theorem witness_TryReceiveCompletes :
    (∀ k q, (busy .tryReceive k 0x21 (dev 0x03 true q [])).atStep .tryReceive k) ∧
    (dev 0x03 true [] []).rxq = [] ∧ (dev 0x03 true [0x41] []).rxq ≠ [] ∧ (dev 0x03 true [0x41] []).rxq = 0x41 :: [] ∧
    (dev 0x03 true [0x41] []).dlab = false := ⟨fun _ _ => ⟨rfl, rfl, rfl⟩, rfl, by decide, rfl, by decide⟩

theorem witness_ReceiveByteCompletes :
    (∀ k, (busy .receiveByte k 0x21 (dev 0x03 true [0x41] [])).atStep .receiveByte k) ∧
    (dev 0x03 true [0x41] []).rxq = 0x41 :: [] ∧ (dev 0x03 true [0x41] []).dlab = false := ⟨fun _ => ⟨rfl, rfl, rfl⟩, rfl, by decide⟩

theorem witness_PollStatusCompletes : (busy .pollStatus 0 0 (dev 0x03 true [0x41] [])).atStep .pollStatus 0 := ⟨rfl, rfl, rfl⟩

/-- A block with POLL_LIMIT, about to fail its poll number `polls + 1`. -/
def bounded (n polls : Nat) (s : State) : State :=
  { s with par := { s.par with pollLimit := some n }, seq := { s.seq with polls := polls } }

/-- The limit just reached, just missed, and absent. -/
theorem witness_FailedPollCountsOrTimesOut :
    (∃ n, (bounded 3 2 (busy .sendByte 0 0 (dev 0x03 true [] [0x48]))).par.pollLimit = some n ∧ n ≤ 2 + 1) ∧
    (∀ n, (bounded 3 1 (busy .sendByte 0 0 (dev 0x03 true [] [0x48]))).par.pollLimit = some n → 1 + 1 < n) ∧
    (∀ n, (busy .sendByte 0 0 (dev 0x03 true [] [0x48])).par.pollLimit = some n → 0 + 1 < n) :=
  ⟨⟨3, rfl, by decide⟩, fun n h => by cases h; decide, fun n h => by cases h⟩

/-- VD6 and VD15 (POLL_LIMIT some 1, the least). -/
theorem witness_BoundedPollingTimesOut :
    (bounded 3 0 (busy .sendByte 0 0 (dev 0x03 true [] [0x48]))).atStep (.sendByte 0x48) 0 ∧
    pollsInVain (.sendByte 0x48) (dev 0x03 true [] [0x48]) ∧
    (bounded 1 0 (busy .receiveByte 0 0 (dev 0x03 true [] []))).atStep .receiveByte 0 ∧
    pollsInVain .receiveByte (dev 0x03 true [] []) ∧
    (bounded 1 0 (busy .receiveByte 0 0 (dev 0x03 true [] []))).seq.polls = 0 ∧
    (bounded 1 0 (busy .receiveByte 0 0 (dev 0x03 true [] []))).par.pollLimit = some 1 :=
  ⟨⟨rfl, rfl, rfl⟩, .inl ⟨_, rfl, by decide⟩, ⟨rfl, rfl, rfl⟩, .inr ⟨rfl, rfl⟩, rfl, rfl⟩

/-- VD7. -/
theorem witness_UnboundedPollingNeverEnds :
    (busy .sendByte 0 0 (dev 0x03 true [] [0x48])).atStep (.sendByte 0x48) 0 ∧ pollsInVain (.sendByte 0x48) (dev 0x03 true [] [0x48]) ∧
    (busy .sendByte 0 0 (dev 0x03 true [] [0x48])).par.pollLimit = none := ⟨⟨rfl, rfl, rfl⟩, .inl ⟨_, rfl, by decide⟩, rfl⟩

/-- Idle, and running another operand. -/
theorem witness_CommandNotRunningStops :
    (idle (dev 0x03 true [] [])).seq.phase = .idle ∧
    (busy .sendByte 0 0 (dev 0x03 true [] [])).seq.instr ≠ Cmd.sendByte.instr 0 0 0x49 := by decide

/-! #### Arbiter and line agent -/

/-- Requester 0 of one may submit; with its command running it may not. -/
theorem witness_SubmitMakesPending :
    CmdWord.wellFormed 0x20000048 = true ∧ (idle (dev 0x03 true [] [])).maySubmit 0 = true ∧
    (busy .sendByte 0 0 (dev 0x03 true [] [])).maySubmit 0 = false ∧ (idle (dev 0x03 true [] [])).maySubmit 1 = false ∧
    (turns [.submit 0 0x20000048] State.reset).schedule = .submit 0 0x20000048 :: [] := by decide

theorem witness_GrantLoadsCommand :
    (idle (dev 0x03 true [] [])).seq.phase = .idle ∧ MapWf [(0, (0x20000048 : CmdWord)), (1, 0x30000000)] ∧
    mapGet 1 [(0, (0x20000048 : CmdWord)), (1, 0x30000000)] = some 0x30000000 ∧ cmdOf 0x30000000 = .ok .tryReceive ∧
    (busy .sendByte 0 0 (dev 0x03 true [] [])).seq.phase = .busy ∧ (turns [.grant 1] State.reset).schedule = .grant 1 :: [] :=
  ⟨rfl, by decide, by decide, by decide, rfl, rfl⟩

/-- Two of two requesters pending and nothing scheduled: the arbiter's own grant. -/
theorem witness_GrantLoadsCommand_own : ∃ s : State, Inv s ∧ s.seq.phase = .idle ∧ s.schedule = [] ∧ s.arb.pending ≠ [] :=
  ⟨{ idle (dev 0x03 true [] []) with
      par := { Params.defaults with nReq := 2 }, arb := { pending := [(0, 0x20000048), (1, 0x30000000)], resp := [] } },
    ⟨by decide, by decide, by decide, by decide, by decide, by decide, by decide, by decide⟩, rfl, rfl, by decide⟩

theorem witness_TakeRemovesOwnResponse :
    MapWf [(0, Response.mk .done 0), (1, ⟨.data, 0x41⟩)] ∧ mapGet 1 [(0, Response.mk .done 0), (1, ⟨.data, 0x41⟩)] ≠ none ∧
    mapGet 2 [(0, Response.mk .done 0), (1, ⟨.data, 0x41⟩)] = none ∧ (turns [.take 1] State.reset).schedule = .take 1 :: [] :=
  ⟨by decide, by decide, by decide, rfl⟩

theorem witness_RunningCommandIsNotReplaced : ∃ t, step (busy .setBaud 2 0x03 (dev 0x83 true [] [])) = next t ∧ t.seq.phase = .busy ∧
    (busy .setBaud 2 0x03 (dev 0x83 true [] [])).seq.phase = .busy := ⟨_, rfl, by decide, rfl⟩

/-- A command that responds, and one that reset cuts off. -/
theorem witness_CommandEndsWithItsResponse :
    (∃ t, step (busy .setBaud 5 0x83 (dev 0x83 true [] [])) = next t ∧ t.seq.phase = .idle) ∧
    ∃ t, step (turns [.reset] (busy .setBaud 3 0x03 (dev 0x83 true [] []))) = next t ∧ t.seq.phase = .idle :=
  ⟨⟨_, rfl, by decide⟩, _, rfl, by decide⟩

/-- Room for the last byte, a full queue (capacity 16 and 1), bytes to drain and none. -/
theorem witness_LineAgentActions :
    (dev 0x03 true (List.replicate 15 0x41) []).rxq.length < (dev 0x03 true (List.replicate 15 0x41) []).cap Params.defaults ∧
    (dev 0x03 true (List.replicate 16 0x41) []).rxq.length = (dev 0x03 true (List.replicate 16 0x41) []).cap Params.defaults ∧
    (dev 0x03 false [0x41] []).rxq.length = (dev 0x03 false [0x41] []).cap Params.defaults ∧
    (dev 0x03 true [] []).rxq.length ≠ (dev 0x03 true [] []).cap Params.defaults ∧
    (dev 0x03 true [] [0x48]).txq = 0x48 :: [] ∧ (dev 0x03 true [] []).txq = [] ∧
    (turns [.rxOverrun 0x42] State.reset).schedule = .rxOverrun 0x42 :: [] := by decide

/-- An arrival into the last place, overruns of a full queue (capacity 1 and 16), a drain. -/
theorem witness_LineAgentFrame :
    (∃ t, step (turns [.rxArrive 0x41] (idle (dev 0x83 true (List.replicate 15 0x40) []))) = next t) ∧
    (∃ t, step (turns [.rxOverrun 0x42] (idle (dev 0x03 false [0x41] []))) = next t) ∧
    (∃ t, step (turns [.rxOverrun 0x42] (idle (dev 0x03 true (List.replicate 16 0x41) []))) = next t) ∧
    ∃ t, step (turns [.txDrain] (idle (dev 0x03 true [] [0x48]))) = next t := ⟨⟨_, rfl⟩, ⟨_, rfl⟩, ⟨_, rfl⟩, _, rfl⟩

/-! #### Reset, outputs, whole machine -/

theorem witness_ResetDropsEverything : (turns [.reset, .txDrain] (busy .setBaud 3 0x03 (dev 0x83 true [] []))).schedule = .reset :: [.txDrain] := by rfl

theorem witness_InterruptLevel :
    ({ dev 0x03 true [] [] with ier := 0x00 }).ier &&& 0x07 = 0 ∧ ({ dev 0x03 true [] [] with ier := 0x01 }).fifoEn = true ∧
    (dev 0x03 true [] []).rxTrig = 0b11 ∧ ({ dev 0x03 false [] [] with ier := 0x01 }).fifoEn = false ∧
    ({ dev 0x03 true [] [] with ier := 0x02 }).ier = 0x02 ∧ ({ dev 0x03 true [] [] with ier := 0x04 }).ier = 0x04 := by decide

theorem witness_StepKeepsInvariant : ∃ t, step (busy .setBaud 2 0x03 (dev 0x83 true [0x41] [0x48])) = next t ∧
    Inv (busy .setBaud 2 0x03 (dev 0x83 true [0x41] [0x48])) := ⟨_, rfl, inv_busy⟩

/-- A disciplined running block, at B2. -/
theorem discipline_busy : Discipline (busy .setBaud 2 0x03 (dev 0x83 true [0x41] [0x48])) := by
  constructor <;> decide

/-- A disciplined running block in Normal mode, at S1. -/
theorem discipline_send : Discipline (busy .sendByte 1 0x20 (dev 0x03 true [] [])) ∧ Inv (busy .sendByte 1 0x20 (dev 0x03 true [] [])) := by
  refine ⟨?_, ⟨by decide, by decide, by decide, by decide, by decide, by decide, by decide, by decide⟩⟩
  constructor <;> decide

theorem witness_StepKeepsDiscipline : ∃ t, step (busy .setBaud 2 0x03 (dev 0x83 true [0x41] [0x48])) = next t ∧
    Inv (busy .setBaud 2 0x03 (dev 0x83 true [0x41] [0x48])) ∧ Discipline (busy .setBaud 2 0x03 (dev 0x83 true [0x41] [0x48])) ∧
    soleOwner (busy .setBaud 2 0x03 (dev 0x83 true [0x41] [0x48])).schedule = true := ⟨_, rfl, inv_busy, discipline_busy, rfl⟩

theorem witness_RunningCommandNeverStops :
    Inv (busy .setBaud 2 0x03 (dev 0x83 true [0x41] [0x48])) ∧ Discipline (busy .setBaud 2 0x03 (dev 0x83 true [0x41] [0x48])) ∧
    (busy .setBaud 2 0x03 (dev 0x83 true [0x41] [0x48])).seq.phase = .busy ∧
    (busy .setBaud 2 0x03 (dev 0x83 true [0x41] [0x48])).schedule = [] := ⟨inv_busy, discipline_busy, rfl, rfl⟩

/-- One access in DivisorAccess (B2) and one in Normal (S1). -/
theorem witness_AccessesKeepModeDiscipline :
    (∃ s t e, Inv s ∧ Discipline s ∧ s.seq.phase = .busy ∧ exec s.seq.instr s = next t ∧ t.ghost.trace = s.ghost.trace ++ [e] ∧
      e.off = 1 ∧ e.mode = .divisorAccess) ∧
    ∃ s t e, Inv s ∧ Discipline s ∧ s.seq.phase = .busy ∧ exec s.seq.instr s = next t ∧ t.ghost.trace = s.ghost.trace ++ [e] ∧
      e.off = 0 ∧ e.mode = .normal :=
  ⟨⟨busy .setBaud 2 0x03 (dev 0x83 true [0x41] [0x48]), _, ⟨.write, 1, 0x01, .divisorAccess⟩, inv_busy, discipline_busy, rfl, rfl,
      by decide, rfl, rfl⟩,
    busy .sendByte 1 0x20 (dev 0x03 true [] []), _, ⟨.write, 0, 0x48, .normal⟩, discipline_send.2, discipline_send.1, rfl, rfl,
      by decide, rfl, rfl⟩

/-- All three outcomes occur. -/
theorem witness_HistoryIsNeverRead :
    (∃ t, step (turns [.raw 0xB83] State.reset) = next t) ∧ step (turns [.txDrain] State.reset) = fault .txDrainNotEnabled ∧
    step (turns [.raw 0x700] State.reset) = refused .offset7Read := ⟨⟨_, rfl⟩, rfl, rfl⟩

theorem witness_TraceGrowsByAtMostOne : ∃ t, step (turns [.raw 0xB83] State.reset) = next t ∧
    (turns [.raw 0xB83] State.reset).schedule.head? ≠ some .reset := ⟨_, rfl, by decide⟩

theorem witness_OnlyLcrWritesChangeMode : ∃ t, step (turns [.raw 0xB83] State.reset) = next t ∧ t.dev.lcr ≠ State.reset.dev.lcr ∧
    (turns [.raw 0xB83] State.reset).schedule.head? ≠ some .reset := ⟨_, rfl, by decide, by decide⟩

theorem discipline_B3 : Discipline (busy .setBaud 3 0x03 (dev 0x83 true [] [])) ∧ Inv (busy .setBaud 3 0x03 (dev 0x83 true [] [])) := by
  refine ⟨?_, ⟨by decide, by decide, by decide, by decide, by decide, by decide, by decide, by decide⟩⟩
  constructor <;> decide

/-- CONFIGURE at C5 and C6. -/
theorem discipline_configure (k : Nat) (h : k = 5 ∨ k = 6) :
    Discipline (busy .configure k 0x83 { dev 0x03 false [] [] with ier := 0x07 }) ∧
    Inv (busy .configure k 0x83 { dev 0x03 false [] [] with ier := 0x07 }) := by
  rcases h with rfl | rfl <;>
    refine ⟨?_, ⟨by decide, by decide, by decide, by decide, by decide, by decide, by decide, by decide⟩⟩ <;>
    constructor <;> decide

/-- The divisor changes at B3, the FIFO settings at C5, IER at C6. -/
theorem witness_OnlyTheirCommandsConfigure :
    (∃ s t, Inv s ∧ Discipline s ∧ soleOwner s.schedule = true ∧ step s = next t ∧ s.schedule.head? ≠ some .reset ∧ t.dev.dll ≠ s.dev.dll) ∧
    (∃ s t, Inv s ∧ Discipline s ∧ soleOwner s.schedule = true ∧ step s = next t ∧ s.schedule.head? ≠ some .reset ∧
      t.dev.fifoEn ≠ s.dev.fifoEn) ∧
    ∃ s t, Inv s ∧ Discipline s ∧ soleOwner s.schedule = true ∧ step s = next t ∧ s.schedule.head? ≠ some .reset ∧ t.dev.ier ≠ s.dev.ier :=
  ⟨⟨busy .setBaud 3 0x03 (dev 0x83 true [] []), _, discipline_B3.2, discipline_B3.1, rfl, rfl, by decide, by decide⟩,
    ⟨busy .configure 5 0x83 { dev 0x03 false [] [] with ier := 0x07 }, _, (discipline_configure 5 (.inl rfl)).2,
      (discipline_configure 5 (.inl rfl)).1, rfl, rfl, by decide, by decide⟩,
    busy .configure 6 0x83 { dev 0x03 false [] [] with ier := 0x07 }, _, (discipline_configure 6 (.inr rfl)).2,
      (discipline_configure 6 (.inr rfl)).1, rfl, rfl, by decide, by decide⟩

theorem witness_SentBytesKeepTheirOrder : ∃ t, step (busy .sendByte 1 0x20 (dev 0x03 true [] [])) = next t ∧
    Inv (busy .sendByte 1 0x20 (dev 0x03 true [] [])) ∧ Discipline (busy .sendByte 1 0x20 (dev 0x03 true [] [])) ∧
    soleOwner (busy .sendByte 1 0x20 (dev 0x03 true [] [])).schedule = true ∧
    (busy .sendByte 1 0x20 (dev 0x03 true [] [])).schedule.head? ≠ some .reset :=
  ⟨_, rfl, discipline_send.2, discipline_send.1, rfl, by decide⟩

/-- C5 with a byte still queued: the one step but reset that drops it. -/
theorem witness_SentBytesKeepTheirOrder_C5 : ∃ s t : State, Inv s ∧ Discipline s ∧ soleOwner s.schedule = true ∧ step s = next t ∧
    s.schedule.head? ≠ some .reset ∧ s.dev.txq ≠ [] ∧ t.dev.txq = [] ∧ t.ghost.txlog = s.ghost.txlog := by
  refine ⟨busy .configure 5 0x83 (dev 0x03 true [] [0x48]), _, ?_, ?_, rfl, rfl, by decide, by decide, by decide, by decide⟩
  · exact ⟨by decide, by decide, by decide, by decide, by decide, by decide, by decide, by decide⟩
  · constructor <;> decide

end Sys2Proof.Tests
end

/-! PROOFS. What one step adds to TRACE, and that it keeps the parameters (00_scope R5, 20_memory R63). -/

namespace Sys2Proof.Machine

/-! ### The end of a micro-step -/

theorem Continues.par_eq {s u t : State} (h : Continues s u t) : t.par = u.par := by
  obtain ⟨q, -, -, -, -, -, ⟨-, -, rfl⟩ | ⟨-, r, -, rfl⟩⟩ := h <;> rfl

theorem Continues.ghost_eq {s u t : State} (h : Continues s u t) : t.ghost = u.ghost := by
  obtain ⟨q, -, -, -, -, -, ⟨-, -, rfl⟩ | ⟨-, r, -, rfl⟩⟩ := h <;> rfl

/-! ### One access of the port -/

theorem portAccess_frame {w : BusWord} {s t : State} (h : portAccess w s = .next t) : PortFrame s t :=
  execRegister_frame h

/-- An access that completes is one TRACE entry (R151). -/
theorem portAccess_trace {w : BusWord} {s t : State} (h : portAccess w s = .next t) :
    ∃ e, t.ghost.trace = s.ghost.trace ++ [e] :=
  execRegister_trace h

theorem MicroStep.par_eq {s t : State} (h : MicroStep s t) : t.par = s.par := by
  obtain ⟨w, u, access, rest⟩ := h
  exact rest.par_eq.trans (portAccess_frame access).par

/-- A micro-step makes one access, and what follows it leaves TRACE alone. -/
theorem MicroStep.trace_eq {s t : State} (h : MicroStep s t) : ∃ e, t.ghost.trace = s.ghost.trace ++ [e] := by
  obtain ⟨w, u, access, rest⟩ := h
  rw [rest.ghost_eq]
  exact portAccess_trace access

/-! ### One turn -/

theorem Turn.par_eq {s t : State} (h : Turn s t) : t.par = s.par := by
  cases h with
  | micro _ busy run => exact (exec_running_micro (s := beginTurn s) busy run).par_eq
  | port _ run => exact (portAccess_frame (s := beginTurn s) ((portAccess_eq_busTurn _ _).trans run)).par
  | quiet | submit | take | grant | rxArrive | rxOverrun | txDrain | reset => rfl

/-- A turn leaves TRACE alone or is one access of the port, unless it is reset (R63). -/
theorem Turn.trace_cases {s t : State} (h : Turn s t) (notReset : s.schedule.head? ≠ some .reset) :
    t.ghost.trace = s.ghost.trace ∨ ∃ e, t.ghost.trace = s.ghost.trace ++ [e] := by
  cases h with
  | micro _ busy run => exact .inr (exec_running_micro (s := beginTurn s) busy run).trace_eq
  | port _ run => exact .inr (portAccess_trace (s := beginTurn s) ((portAccess_eq_busTurn _ _).trans run))
  | quiet | submit | take | grant | rxArrive | rxOverrun | txDrain => exact .inl rfl
  | reset isReset => exact absurd isReset notReset

/-- Settles O56, from what one turn does to the parameters and to TRACE. -/
theorem traceGrowsByAtMostOne : Obligations.TraceGrowsByAtMostOne := by
  intro s t h
  have turn := step_turn h
  refine ⟨turn.par_eq, fun notReset => ?_⟩
  obtain same | ⟨e, appended⟩ := turn.trace_cases notReset
  · exact ⟨[], by simp, by simpa using same⟩
  · exact ⟨[e], by simp, appended⟩

end Sys2Proof.Machine

/-! PROOFS. Every step keeps the invariants of device, arbiter and sequencer (10_state R40, R44, R47, 43_tx_rx_status R232). -/

namespace Sys2Proof

/-- A word that is some command matches that command's row and no other (R106). -/
theorem wellFormed_of_cmdOf {c : Cmd} {w : CmdWord} (h : cmdOf w = .ok c) : CmdWord.wellFormed w = true := by
  have rows : ∀ c' : Cmd, c'.matches w = decide (c' = c) := by
    intro c'
    by_cases same : c' = c
    · simp [same, matches_of_cmdOf h]
    · have : c'.matches w ≠ true := by
        intro m
        rw [cmdOf_eq_ok m] at h
        cases h
        exact same rfl
      simp [same, this]
  simp only [CmdWord.wellFormed, rows]
  cases c <;> decide

end Sys2Proof

namespace Sys2Proof.Machine

/-! ### Which requester is running -/

theorem isRunningFor_eq_false {s : State} {i : Nat} :
    s.isRunningFor i = false ↔ (s.seq.phase = .busy → s.seq.req ≠ i) := by
  simp [State.isRunningFor]

theorem maySubmit_eq_true {s : State} {i : Nat} : s.maySubmit i = true ↔
    i < s.par.nReq ∧ mapGet i s.arb.pending = none ∧ mapGet i s.arb.resp = none ∧ s.isRunningFor i = false := by
  simp [State.maySubmit, and_assoc]

/-! ### Steps on the device side -/

theorem Inv.devOk {s : State} (h : Inv s) : DevOk s.par s.dev := ⟨h.rxFits, h.txFits, h.ierLegal⟩

/-- What keeps the device facts and leaves sequencer and arbiter alone keeps the invariant. -/
theorem Inv.of_devOk {s t : State} (h : Inv s) (par : t.par = s.par) (seq : t.seq = s.seq) (arb : t.arb = s.arb)
    (ok : DevOk s.par t.dev) : Inv t := by
  obtain ⟨par', dev', seq', arb', ghost', rdata', draws', schedule'⟩ := t
  cases par; cases seq; cases arb
  exact ⟨h.params, ok.rx, ok.tx, ok.ier, h.stepRange, h.pending, h.resp, h.single⟩

theorem portAccess_keeps_inv {w : BusWord} {s t : State} (h : Inv s) (access : portAccess w s = .next t) : Inv t :=
  have frame := portAccess_frame access
  h.of_devOk frame.par frame.seq frame.arb (execRegister_devOk h.params h.devOk access)

theorem DevOk.rxArrive {p : Params} {d : Dev} (h : DevOk p d) (room : d.rxq.length < d.cap p) (b : Byte) :
    DevOk p { d with rxq := d.rxq ++ [b] } :=
  ⟨by rw [List.length_append]; exact room, h.tx, h.ier⟩

theorem DevOk.rxOverrun {p : Params} {d : Dev} (h : DevOk p d) (params : p.wellFormed = true) {b : Byte} {q : List Byte}
    (outcome : q = d.rxq ∨ q = replaceLast d.rxq b) : DevOk p { d with rxq := q } := by
  refine ⟨?_, h.tx, h.ier⟩
  rcases outcome with rfl | rfl
  · exact h.rx
  · exact length_replaceLast_le h.rx (cap_pos params _) b

theorem DevOk.txDrain {p : Params} {d : Dev} (h : DevOk p d) {b : Byte} {q : List Byte} (queued : d.txq = b :: q) :
    DevOk p { d with txq := q } := by
  have fits := h.tx
  rw [queued] at fits
  exact ⟨h.rx, Nat.le_of_succ_le fits, h.ier⟩

/-! ### Steps of the sequencer and the arbiter -/

/-- A response goes to the requester that was running, which had nothing pending or answered (R232, R235). -/
theorem respond_keeps_inv {s : State} (h : Inv s) (busy : s.seq.phase = .busy) {r : Response} (legal : r.wellFormed = true)
    {q : Seq} (idle : q.phase = .idle) :
    Inv ((s.setArb { s.arb with resp := mapPut s.seq.req r s.arb.resp }).setSeq q) := by
  obtain ⟨pendingFree, respFree⟩ := h.single
  refine ⟨h.params, h.rxFits, h.txFits, h.ierLegal, ?_, h.pending, ⟨mapPut_keeps_wf _ _ h.resp.1, ?_⟩, ?_, ?_⟩
  · intro b
    exact absurd (idle.symm.trans b) (by decide)
  · intro e mem
    obtain rfl | mem := mem_of_mem_mapPut mem
    · exact ⟨(h.stepRange busy).2, legal⟩
    · exact h.resp.2 e mem
  · intro e mem
    obtain ⟨absent, notRunning⟩ := pendingFree e mem
    have other : e.1 ≠ s.seq.req := (isRunningFor_eq_false.1 notRunning busy).symm
    refine ⟨(mapGet_mapPut_other other _ _).trans absent, ?_⟩
    simp [isRunningFor_eq_false, idle]
  · intro e _
    simp [isRunningFor_eq_false, idle]

/-- The end of a micro-step keeps the invariant: the sequencer stays in its microprogram, or it responds. -/
theorem Continues.keeps_inv {s t : State} (c : Continues s s t) (h : Inv s) (busy : s.seq.phase = .busy) : Inv t := by
  obtain ⟨q, cmd, req, -, -, -, ⟨qBusy, inRange, rfl⟩ | ⟨qIdle, r, legal, rfl⟩⟩ := c
  · have running : ∀ i, (s.setSeq q).isRunningFor i = s.isRunningFor i := by
      simp [State.isRunningFor, busy, qBusy, req]
    refine ⟨h.params, h.rxFits, h.txFits, h.ierLegal, fun _ => ?_, h.pending, h.resp, ?_⟩
    · exact ⟨by simpa [cmd] using inRange, by simpa [req] using (h.stepRange busy).2⟩
    · simp only [OneOutstanding, running]
      exact h.single
  · exact respond_keeps_inv h busy legal qIdle

theorem Continues.of_seq_eq {s u t : State} (c : Continues s u t) (seq : u.seq = s.seq) : Continues u u t := by
  unfold Continues at c ⊢
  rw [seq]
  exact c

theorem MicroStep.keeps_inv {s t : State} (m : MicroStep s t) (h : Inv s) (busy : s.seq.phase = .busy) : Inv t := by
  obtain ⟨w, u, access, rest⟩ := m
  have seq := (portAccess_frame access).seq
  exact (rest.of_seq_eq seq).keeps_inv (portAccess_keeps_inv h access) (by rw [seq]; exact busy)

theorem submit_keeps_inv {s : State} (h : Inv s) {i : Nat} {w : CmdWord} {c : Cmd} (word : cmdOf w = .ok c)
    (may : s.maySubmit i = true) : Inv (s.setArb { s.arb with pending := mapPut i w s.arb.pending }) := by
  obtain ⟨inRange, -, noResp, notRunning⟩ := maySubmit_eq_true.1 may
  obtain ⟨pendingFree, respFree⟩ := h.single
  refine ⟨h.params, h.rxFits, h.txFits, h.ierLegal, h.stepRange, ⟨mapPut_keeps_wf _ _ h.pending.1, ?_⟩, h.resp, ?_, respFree⟩
  · intro e mem
    obtain rfl | mem := mem_of_mem_mapPut mem
    · exact ⟨inRange, wellFormed_of_cmdOf word⟩
    · exact h.pending.2 e mem
  · intro e mem
    obtain rfl | mem := mem_of_mem_mapPut mem
    · exact ⟨noResp, notRunning⟩
    · exact pendingFree e mem

theorem take_keeps_inv {s : State} (h : Inv s) (i : Nat) : Inv (s.setArb { s.arb with resp := mapDel i s.arb.resp }) := by
  obtain ⟨pendingFree, respFree⟩ := h.single
  refine ⟨h.params, h.rxFits, h.txFits, h.ierLegal, h.stepRange, h.pending,
    ⟨mapDel_keeps_wf _ h.resp.1, fun e mem => h.resp.2 e (mem_of_mem_mapDel mem)⟩, ?_,
    fun e mem => respFree e (mem_of_mem_mapDel mem)⟩
  intro e mem
  obtain ⟨absent, notRunning⟩ := pendingFree e mem
  exact ⟨mapGet_eq_none.2 fun r mem' => mapGet_eq_none.1 absent r (mem_of_mem_mapDel mem'), notRunning⟩

/-- The granted requester leaves the pending map as it begins to run, so it is never in both (R232, R234). -/
theorem grant_keeps_inv {s : State} (h : Inv s) {i : Nat} {w : CmdWord} (pending : mapGet i s.arb.pending = some w) (c : Cmd) :
    Inv ((s.setArb { s.arb with pending := mapDel i s.arb.pending }).setSeq (s.seq.load i c w)) := by
  obtain ⟨pendingFree, -⟩ := h.single
  have mem_i := mem_of_mapGet pending
  have running : ∀ j, j ≠ i →
      ((s.setArb { s.arb with pending := mapDel i s.arb.pending }).setSeq (s.seq.load i c w)).isRunningFor j = false :=
    fun j ne => isRunningFor_eq_false.2 fun _ => Ne.symm ne
  refine ⟨h.params, h.rxFits, h.txFits, h.ierLegal, fun _ => ⟨Nat.zero_le _, (h.pending.2 _ mem_i).1⟩,
    ⟨mapDel_keeps_wf _ h.pending.1, fun e mem => h.pending.2 e (mem_of_mem_mapDel mem)⟩, h.resp, ?_, ?_⟩
  · intro e mem
    have other : e.1 ≠ i := mapGet_eq_none.1 (mapGet_mapDel_self i h.pending.1) e mem
    exact ⟨(pendingFree e (mem_of_mem_mapDel mem)).1, running e.1 other⟩
  · intro e mem
    exact running e.1 (mapGet_eq_none.1 (pendingFree _ mem_i).1 e mem)

/-! ### Reset -/

theorem resetImage_wellFormed_iff {r : ResetImage} {depth : Nat} : r.wellFormed depth = true ↔
    r.rxq.length ≤ (if r.fifoEn then depth else 1) ∧ r.txq.length ≤ (if r.fifoEn then depth else 1) ∧ r.ier &&& 0xF8 = 0 := by
  simp [ResetImage.wellFormed, and_assoc]

theorem takeReset_inv {s : State} (params : s.par.wellFormed = true) : Inv (takeReset s) := by
  have image : s.par.resetImage.wellFormed s.par.fifoDepth = true := by
    simp only [Params.wellFormed, Bool.and_eq_true] at params
    exact params.2
  obtain ⟨rx, tx, ier⟩ := resetImage_wellFormed_iff.1 image
  exact ⟨params, rx, tx, ier, by simp [Seq.reset], by simp [PendingOk, MapWf], by simp [RespOk, MapWf],
    by simp [OneOutstanding]⟩

/-! ### One turn -/

theorem beginTurn_keeps_inv {s : State} (h : Inv s) : Inv (beginTurn s) := h.of_devOk rfl rfl rfl h.devOk

theorem Turn.keeps_inv {s t : State} (turn : Turn s t) (h : Inv s) : Inv t := by
  have h' := beginTurn_keeps_inv h
  cases turn with
  | quiet => exact h'
  | micro _ busy run => exact (exec_running_micro (s := beginTurn s) busy run).keeps_inv h' busy
  | submit _ word may => exact submit_keeps_inv h' word may
  | take => exact take_keeps_inv h' _
  | grant _ _ pending => exact grant_keeps_inv h' pending _
  | rxArrive _ room => exact h'.of_devOk rfl rfl rfl (h.devOk.rxArrive room _)
  | rxOverrun _ _ outcome => exact h'.of_devOk rfl rfl rfl (h.devOk.rxOverrun h.params outcome)
  | txDrain _ queued => exact h'.of_devOk rfl rfl rfl (h.devOk.txDrain queued)
  | port _ run => exact portAccess_keeps_inv h' ((portAccess_eq_busTurn _ _).trans run)
  | reset => exact takeReset_inv h.params

/-- Settles O51, turn by turn. -/
theorem stepKeepsInvariant : Obligations.StepKeepsInvariant :=
  fun _ _ h next => (step_turn next).keeps_inv h

end Sys2Proof.Machine

/-! PROOFS. Who changes LCR, and so the access mode (10_state R26, 41_divisor_latch R180, R181). -/

namespace Sys2Proof.Machine

theorem decodeBus_eq_wrLcr {dlab : Bool} {w : BusWord} {b : Byte} (h : decodeBus dlab w = .wrLcr b) :
    BusWord.isWrite w = true ∧ BusWord.off w = offLcr := by
  unfold decodeBus at h
  split at h
  case h_8 rw off2 off1 off0 =>
    refine ⟨rw, ?_⟩
    ext i hi
    interval_cases i
    · simpa [BusWord.off, offLcr] using off0
    · simpa [BusWord.off, offLcr] using off1
    · simpa [BusWord.off, offLcr] using off2
  all_goals first
    | cases h
    | (cases dlab <;> cases h)

/-- WR_LCR alone changes LCR (R141, R181). -/
theorem execRegister_lcr {i : Instr} {s t : State} (h : execRegister i s = .next t) (other : ∀ b, i ≠ .wrLcr b) :
    t.dev.lcr = s.dev.lcr := by
  cases i <;> simp only [execRegister] at h
  case wrLcr b => exact absurd rfl (other b)
  case rdRbr =>
    obtain ⟨-, h⟩ := selectedUnder_eq_next.1 h
    split at h <;> (cases h; rfl)
  case wrThr =>
    obtain ⟨-, h⟩ := selectedUnder_eq_next.1 h
    split at h <;> (cases h; rfl)
  case wrIer =>
    obtain ⟨-, h⟩ := selectedUnder_eq_next.1 h
    split at h
    · cases h; rfl
    · cases h
  case wrFcr =>
    unfold execWrFcr at h
    split at h
    · cases h; rfl
    · cases h
  all_goals first
    | (cases h; rfl)
    | (cases (selectedUnder_eq_next.1 h).2; rfl)
    | cases h

/-- An access at another offset, or a read, leaves LCR alone. -/
theorem portAccess_lcr {w : BusWord} {s t : State} (h : portAccess w s = .next t)
    (other : BusWord.isWrite w = false ∨ BusWord.off w ≠ offLcr) : t.dev.lcr = s.dev.lcr := by
  refine execRegister_lcr h fun b eq => ?_
  obtain ⟨write, off⟩ := decodeBus_eq_wrLcr eq
  rcases other with read | ne
  · rw [write] at read; cases read
  · exact ne off

/-- An access leaves LCR alone or is recorded as the write of its new value. -/
theorem portAccess_lcr_or_write {w : BusWord} {s t : State} (h : portAccess w s = .next t) :
    t.dev.lcr = s.dev.lcr ∨ t.ghost.trace = s.ghost.trace ++ [⟨.write, offLcr, t.dev.lcr, s.dev.mode⟩] := by
  by_cases isWrite : ∃ b, decodeBus s.dev.dlab w = .wrLcr b
  · obtain ⟨b, eq⟩ := isWrite
    unfold portAccess at h
    rw [eq] at h
    cases h
    exact .inr rfl
  · exact .inl (execRegister_lcr h fun b eq => isWrite ⟨b, eq⟩)

theorem Continues.dev_eq {s u t : State} (h : Continues s u t) : t.dev = u.dev := by
  obtain ⟨q, -, -, -, -, -, ⟨-, -, rfl⟩ | ⟨-, r, -, rfl⟩⟩ := h <;> rfl

theorem MicroStep.lcr_or_write {s t : State} (h : MicroStep s t) :
    t.dev.lcr = s.dev.lcr ∨ t.ghost.trace = s.ghost.trace ++ [⟨.write, offLcr, t.dev.lcr, s.dev.mode⟩] := by
  obtain ⟨w, u, access, rest⟩ := h
  rw [rest.dev_eq, rest.ghost_eq]
  exact portAccess_lcr_or_write access

/-- Only an access of the port, by the sequencer or from outside, and reset reach LCR. -/
theorem Turn.lcr_or_write {s t : State} (turn : Turn s t) (notReset : s.schedule.head? ≠ some .reset) :
    t.dev.lcr = s.dev.lcr ∨ t.ghost.trace = s.ghost.trace ++ [⟨.write, offLcr, t.dev.lcr, s.dev.mode⟩] := by
  cases turn with
  | micro _ busy run => exact (exec_running_micro (s := beginTurn s) busy run).lcr_or_write
  | port _ run => exact portAccess_lcr_or_write (s := beginTurn s) ((portAccess_eq_busTurn _ _).trans run)
  | quiet | submit | take | grant | rxArrive | rxOverrun | txDrain => exact .inl rfl
  | reset isReset => exact absurd isReset notReset

/-- Settles O57: a turn but reset reaches LCR through the port alone. -/
theorem onlyLcrWritesChangeMode : Obligations.OnlyLcrWritesChangeMode :=
  ⟨fun _ => rfl, fun _ _ next notReset => (step_turn next).lcr_or_write notReset⟩

end Sys2Proof.Machine

/-! PROOFS. The running command: what a step of the sequencer is, and what no step changes (10_state R34, R35). -/

namespace Sys2Proof.Machine

/-- Settles O23: an empty schedule and a scheduled micro-step are the same turn while a command runs. -/
theorem stepRunsRunningCommand : Obligations.StepRunsRunningCommand := by
  intro s busy turn
  have run : microStep (beginTurn s) = exec s.seq.instr (beginTurn s) := by
    simp [microStep, busy]
  obtain empty | ⟨l, scheduled⟩ := turn
  · rw [step_nil empty]
    simp only [ownTurn, beginTurn_seq, busy]
    exact run
  · rw [step_cons scheduled]
    exact run

/-- What R35 keeps while a command runs. -/
def Seq.SameCommand (q q' : Seq) : Prop :=
  q'.cmd = q.cmd ∧ q'.req = q.req ∧ q'.d = q.d ∧ q'.p = q.p ∧ q'.b = q.b

theorem Seq.SameCommand.of_eq {q q' : Seq} (h : q' = q) : q.SameCommand q' := by
  subst h
  exact ⟨rfl, rfl, rfl, rfl, rfl⟩

theorem Continues.sameCommand {s u t : State} (h : Continues s u t) : s.seq.SameCommand t.seq := by
  obtain ⟨q, cmd, req, d, p, b, ⟨-, -, rfl⟩ | ⟨-, r, -, rfl⟩⟩ := h <;> exact ⟨cmd, req, d, p, b⟩

/-- Only a grant, which needs an idle sequencer, and reset, which leaves an idle one, change the command. -/
theorem Turn.sameCommand {s t : State} (turn : Turn s t) (busy : s.seq.phase = .busy) (still : t.seq.phase = .busy) :
    s.seq.SameCommand t.seq := by
  cases turn with
  | micro _ _ run =>
    obtain ⟨w, u, -, rest⟩ := exec_running_micro (s := beginTurn s) busy run
    exact rest.sameCommand
  | port _ run => exact .of_eq (portAccess_frame (s := beginTurn s) ((portAccess_eq_busTurn _ _).trans run)).seq
  | grant _ idle => exact absurd (busy.symm.trans idle) (by decide)
  | reset => cases still
  | quiet | submit | take | rxArrive | rxOverrun | txDrain => exact .of_eq rfl

/-- Settles O43. -/
theorem runningCommandIsNotReplaced : Obligations.RunningCommandIsNotReplaced :=
  fun _ _ next busy still => (step_turn next).sameCommand busy still

end Sys2Proof.Machine

/-! PROOFS. Under sole ownership every step keeps the sequencer's discipline (41_divisor_latch R187, 42_configure R204,
43_tx_rx_status R225, R226). -/

namespace Sys2Proof.Machine

/-! ### The access of a micro-step -/

/-- After its access a micro-step finds LCR at `lcr` and SEQ.t at `v`, the running command being the same. -/
structure Accessed (s u : State) (lcr v : Byte) : Prop where
  par   : u.par = s.par
  phase : u.seq.phase = s.seq.phase
  cmd   : u.seq.cmd = s.seq.cmd
  lcr   : u.dev.lcr = lcr
  t     : u.seq.t = v

theorem writeStep_accessed {off : Offset} {b : Byte} {k : State → Result} {s t : State} (other : off ≠ offLcr)
    (h : writeStep off b k s = .next t) : ∃ u, Accessed s u s.dev.lcr s.seq.t ∧ k u = .next t := by
  obtain ⟨u, access, rest⟩ := andThen_eq_next.1 h
  have frame := portAccess_frame access
  have lcr := portAccess_lcr access (.inr (by rwa [busWrite_off]))
  exact ⟨u, ⟨frame.par, by rw [frame.seq], by rw [frame.seq], lcr, by rw [frame.seq]⟩, rest⟩

theorem writeLcr_accessed {b : Byte} {k : State → Result} {s t : State} (h : writeStep offLcr b k s = .next t) :
    ∃ u, Accessed s u b s.seq.t ∧ k u = .next t := by
  obtain ⟨u, access, rest⟩ := andThen_eq_next.1 h
  rw [regWrite_lcr] at access
  cases access
  refine ⟨_, ?_, rest⟩
  exact ⟨rfl, rfl, rfl, rfl, rfl⟩

theorem readStep_accessed {off : Offset} {k : State → Result} {s t : State} (h : readStep off k s = .next t) :
    ∃ u v, Accessed s u s.dev.lcr v ∧ k u = .next t := by
  obtain ⟨u, access, rest⟩ := andThen_eq_next.1 h
  have frame := portAccess_frame access
  have lcr := portAccess_lcr access (.inl (busRead_isWrite _))
  exact ⟨latchT u, u.rdata, ⟨frame.par, by simp [frame.seq], by simp [frame.seq], lcr, rfl⟩, rest⟩

theorem readLcr_accessed {k : State → Result} {s t : State} (h : readLcrStep k s = .next t) :
    ∃ u, Accessed s u s.dev.lcr s.dev.lcr ∧ k u = .next t := by
  rw [readLcrStep, readStep] at h
  obtain ⟨u, access, rest⟩ := andThen_eq_next.1 h
  cases access
  refine ⟨_, ?_, rest⟩
  exact ⟨rfl, rfl, rfl, rfl, rfl⟩

/-- A poll shows the two conditions of the device as they are (R144). -/
theorem readLsr_accessed {k : State → Result} {s t : State} (h : readStep offLsr k s = .next t) :
    ∃ u v, Accessed s u s.dev.lcr v ∧ u.dev = s.dev ∧ lineStatus u.seq.t = ⟨s.dev.dataReady, s.dev.txEmpty⟩ ∧ k u = .next t := by
  obtain ⟨u, access, rest⟩ := andThen_eq_next.1 h
  cases access
  refine ⟨_, s.dev.lsr (Config.lsrReserved s.draws), ?_, ?_, ?_, rest⟩
  · exact ⟨rfl, rfl, rfl, rfl, rfl⟩
  · rfl
  · exact lineStatus_lsr _ _

theorem Accessed.countPoll {s u : State} {lcr v : Byte} (a : Accessed s u lcr v) :
    Accessed s (u.setSeq { u.seq with polls := u.seq.polls + 1 }) lcr v :=
  ⟨a.par, a.phase, a.cmd, a.lcr, a.t⟩

theorem Accessed.image {s u : State} {lcr v : Byte} (a : Accessed s u lcr v) (h : Discipline s) :
    u.par.resetImage.lcr.getLsbD 7 = false := by
  rw [a.par]
  exact h.resetNormal

/-! ### The positions the discipline speaks of -/

/-- An idle sequencer asks for Normal mode and nothing else. -/
theorem Discipline.of_idle {t : State} (image : t.par.resetImage.lcr.getLsbD 7 = false) (idle : t.seq.phase = .idle)
    (normal : t.dev.dlab = false) : Discipline t := by
  have notBusy : t.seq.phase ≠ .busy := by simp [idle]
  exact ⟨image, by simp [Seq.expectedDlab, idle, normal], fun b => absurd b notBusy, fun b => absurd b notBusy,
    fun b => absurd b notBusy, fun b => absurd b notBusy, fun b => absurd b notBusy, fun b => absurd b notBusy⟩

/-- So does a command that has not begun. -/
theorem Discipline.of_start {t : State} (image : t.par.resetImage.lcr.getLsbD 7 = false) (start : t.seq.step = 0)
    (normal : t.dev.dlab = false) : Discipline t := by
  refine ⟨image, ?_, ?_, ?_, ?_, ?_, ?_, ?_⟩
  · rw [normal, Seq.expectedDlab]
    split <;> simp [start]
  all_goals simp [start]

theorem Discipline.of_setBaud {t : State} (image : t.par.resetImage.lcr.getLsbD 7 = false) (busy : t.seq.phase = .busy)
    (cmd : t.seq.cmd = .setBaud) (mode : t.dev.dlab = (2 ≤ t.seq.step && t.seq.step ≤ 5))
    (read : t.seq.step = 1 ∨ t.seq.step = 5 → t.seq.t = t.dev.lcr) : Discipline t := by
  refine ⟨image, ?_, fun _ _ => read, ?_, ?_, ?_, ?_, ?_⟩
  · simp [Seq.expectedDlab, busy, cmd, mode]
  all_goals simp [cmd]

theorem Discipline.of_configure {t : State} (image : t.par.resetImage.lcr.getLsbD 7 = false)
    (busy : t.seq.phase = .busy) (cmd : t.seq.cmd = .configure) (mode : t.dev.dlab = (1 ≤ t.seq.step && t.seq.step ≤ 4))
    (read : t.seq.step = 4 → t.seq.t = t.dev.lcr) (opened : 1 ≤ t.seq.step → t.seq.step ≤ 4 → t.dev.lcr = 0x83)
    (closed : 5 ≤ t.seq.step → t.seq.step ≤ 6 → t.dev.lcr = 0x03) : Discipline t := by
  refine ⟨image, ?_, ?_, fun _ _ => read, fun _ _ => opened, fun _ _ => closed, ?_, ?_⟩
  · simp [Seq.expectedDlab, busy, cmd, mode]
  all_goals simp [cmd]

/-- A data-path command asks for Normal mode and, past its poll, for the condition the poll tested. -/
theorem Discipline.of_dataPath {t : State} (image : t.par.resetImage.lcr.getLsbD 7 = false)
    (cmd : t.seq.cmd ≠ .setBaud ∧ t.seq.cmd ≠ .configure) (normal : t.dev.dlab = false)
    (txGate : t.seq.cmd = .sendByte → t.dev.txq = [])
    (rxGate : t.seq.cmd = .tryReceive ∨ t.seq.cmd = .receiveByte → t.dev.rxq ≠ []) : Discipline t := by
  obtain ⟨notSetBaud, notConfigure⟩ := cmd
  refine ⟨image, ?_, ?_, ?_, ?_, ?_, fun _ c _ => txGate c, fun _ c _ => rxGate c⟩
  · rw [normal, Seq.expectedDlab]
    split <;> simp_all
  all_goals simp [notSetBaud, notConfigure]

/-- The discipline asks nothing of the rest of the state, and of the queues only that a gate once met stays met. -/
theorem Discipline.of_frame {s t : State} (h : Discipline s) (par : t.par = s.par) (seq : t.seq = s.seq)
    (lcr : t.dev.lcr = s.dev.lcr) (tx : s.dev.txq = [] → t.dev.txq = []) (rx : s.dev.rxq ≠ [] → t.dev.rxq ≠ []) :
    Discipline t := by
  have dlab : t.dev.dlab = s.dev.dlab := by rw [Dev.dlab, lcr, Dev.dlab]
  exact ⟨by rw [par]; exact h.resetNormal, by rw [dlab, seq]; exact h.mode, by rw [seq, lcr]; exact h.lcrRead,
    by rw [seq, lcr]; exact h.lcrRead4, by rw [seq, lcr]; exact h.lcrOpen, by rw [seq, lcr]; exact h.lcrClosed,
    by rw [seq]; exact fun b c k => tx (h.txGate b c k), by rw [seq]; exact fun b c k => rx (h.rxGate b c k)⟩

/-! ### The end of a micro-step -/

section Ends
variable {s u t : State} {lcr v : Byte} {k : Nat}

theorem Accessed.respond_discipline (a : Accessed s u lcr v) (h : Discipline s) {kind : RspKind} {b : Byte}
    (rest : respond kind b u = .next t) (normal : lcr.getLsbD 7 = false) : Discipline t := by
  have image := a.image h
  obtain ⟨-, -, -, rfl, -⟩ := a
  cases rest
  exact .of_idle image rfl normal

theorem Accessed.goto_setBaud_discipline (a : Accessed s u lcr v) (h : Discipline s) (busy : s.seq.phase = .busy)
    (cmd : s.seq.cmd = .setBaud) (rest : goto k u = .next t) (mode : lcr.getLsbD 7 = (2 ≤ k && k ≤ 5))
    (read : k = 1 ∨ k = 5 → v = lcr) : Discipline t := by
  have image := a.image h
  obtain ⟨-, phase, sameCmd, rfl, rfl⟩ := a
  cases rest
  exact .of_setBaud image (phase.trans busy) (sameCmd.trans cmd) mode read

theorem Accessed.goto_configure_discipline (a : Accessed s u lcr v) (h : Discipline s) (busy : s.seq.phase = .busy)
    (cmd : s.seq.cmd = .configure) (rest : goto k u = .next t) (mode : lcr.getLsbD 7 = (1 ≤ k && k ≤ 4))
    (read : k = 4 → v = lcr) (opened : 1 ≤ k → k ≤ 4 → lcr = 0x83) (closed : 5 ≤ k → k ≤ 6 → lcr = 0x03) :
    Discipline t := by
  have image := a.image h
  obtain ⟨-, phase, sameCmd, rfl, rfl⟩ := a
  cases rest
  exact .of_configure image (phase.trans busy) (sameCmd.trans cmd) mode read opened closed

/-- A failed poll responds, or goes back to the poll at step 0; either way Normal mode is all that is asked for. -/
theorem Accessed.pollFailed_discipline (a : Accessed s u lcr v) (h : Discipline s) (rest : pollFailed 0 u = .next t)
    (normal : lcr.getLsbD 7 = false) : Discipline t := by
  obtain ⟨-, e⟩ | ⟨-, e⟩ := pollFailed_cases 0 u <;> rw [e] at rest
  · exact a.countPoll.respond_discipline h rest normal
  · have image := a.image h
    obtain ⟨-, -, -, rfl, -⟩ := a
    cases rest
    exact .of_start image rfl normal

end Ends

/-! ### Micro-steps, command by command -/

section Commands
variable {s t : State}

/-- SET_BAUD: bit 7 of LCR is set at B1 and cleared at B5, each on the byte just read. -/
theorem execSetBaud_discipline (h : Discipline s) {d : Divisor} (run : execSetBaud d s = .next t) : Discipline t := by
  obtain ⟨⟨busy, instr⟩, run⟩ := whileRunning_eq_next.1 run
  have cmd := (instr_setBaud instr).1
  have mode : s.dev.lcr.getLsbD 7 = (2 ≤ s.seq.step && s.seq.step ≤ 5) := by
    have mode := h.mode
    simp only [Seq.expectedDlab, busy, cmd] at mode
    exact mode
  split at run
  · next step =>
    rw [step] at mode
    obtain ⟨u, a, rest⟩ := readLcr_accessed run
    exact a.goto_setBaud_discipline h busy cmd rest mode fun _ => rfl
  · obtain ⟨u, a, rest⟩ := writeLcr_accessed run
    exact a.goto_setBaud_discipline h busy cmd rest (setDlab_dlab _) (by omega)
  · next step =>
    rw [step] at mode
    obtain ⟨u, a, rest⟩ := writeStep_accessed (by decide) run
    exact a.goto_setBaud_discipline h busy cmd rest mode (by omega)
  · next step =>
    rw [step] at mode
    obtain ⟨u, a, rest⟩ := writeStep_accessed (by decide) run
    exact a.goto_setBaud_discipline h busy cmd rest mode (by omega)
  · next step =>
    rw [step] at mode
    obtain ⟨u, a, rest⟩ := readLcr_accessed run
    exact a.goto_setBaud_discipline h busy cmd rest mode fun _ => rfl
  · obtain ⟨u, a, rest⟩ := writeLcr_accessed run
    exact a.respond_discipline h rest (clearDlab_dlab _)
  · cases run

/-- CONFIGURE: LCR is 0x83 from C0 to C4 and 0x03 after it (R204). -/
theorem execConfigure_discipline (h : Discipline s) {p : BitVec 3} {d : Divisor} (run : execConfigure p d s = .next t) :
    Discipline t := by
  obtain ⟨⟨busy, instr⟩, run⟩ := whileRunning_eq_next.1 run
  have cmd := (instr_configure instr).1
  have opened := h.lcrOpen busy cmd
  have closed := h.lcrClosed busy cmd
  split at run
  · obtain ⟨u, a, rest⟩ := writeLcr_accessed run
    exact a.goto_configure_discipline h busy cmd rest (by decide) (by omega) (fun _ _ => by decide) (by omega)
  · next step =>
    have lcr := opened (by omega) (by omega)
    obtain ⟨u, a, rest⟩ := writeStep_accessed (by decide) run
    exact a.goto_configure_discipline h busy cmd rest (by rw [lcr]; decide) (by omega) (fun _ _ => lcr) (by omega)
  · next step =>
    have lcr := opened (by omega) (by omega)
    obtain ⟨u, a, rest⟩ := writeStep_accessed (by decide) run
    exact a.goto_configure_discipline h busy cmd rest (by rw [lcr]; decide) (by omega) (fun _ _ => lcr) (by omega)
  · next step =>
    have lcr := opened (by omega) (by omega)
    obtain ⟨u, a, rest⟩ := readLcr_accessed run
    exact a.goto_configure_discipline h busy cmd rest (by rw [lcr]; decide) (fun _ => rfl) (fun _ _ => lcr) (by omega)
  · next step =>
    have cleared : clearDlab s.seq.t = 0x03 := by
      rw [h.lcrRead4 busy cmd step, opened (by omega) (by omega)]
      decide
    obtain ⟨u, a, rest⟩ := writeLcr_accessed run
    exact a.goto_configure_discipline h busy cmd rest (clearDlab_dlab _) (by omega) (by omega) fun _ _ => cleared
  · next step =>
    have lcr := closed (by omega) (by omega)
    obtain ⟨u, a, rest⟩ := writeStep_accessed (by decide) run
    exact a.goto_configure_discipline h busy cmd rest (by rw [lcr]; decide) (by omega) (by omega) fun _ _ => lcr
  · next step =>
    have lcr := closed (by omega) (by omega)
    obtain ⟨u, a, rest⟩ := writeStep_accessed (by decide) run
    exact a.respond_discipline h rest (by rw [lcr]; decide)
  · cases run

/-- The data-path commands run in Normal mode throughout (R227). -/
theorem Discipline.normal_of_dataPath (h : Discipline s) (cmd : s.seq.cmd ≠ .setBaud ∧ s.seq.cmd ≠ .configure) :
    s.dev.lcr.getLsbD 7 = false := by
  have mode := h.mode
  unfold Seq.expectedDlab at mode
  split at mode <;> simp_all [Dev.dlab]

/-- SEND_BYTE passes its poll only with TXQ empty (R225). -/
theorem execSendByte_discipline (h : Discipline s) {b : Byte} (run : execSendByte b s = .next t) : Discipline t := by
  obtain ⟨⟨-, instr⟩, run⟩ := whileRunning_eq_next.1 run
  have cmd := (instr_sendByte instr).1
  have normal := h.normal_of_dataPath (by simp [cmd])
  split at run
  · obtain ⟨u, v, a, dev, status, rest⟩ := readLsr_accessed run
    rw [status] at rest
    split at rest
    · next empty =>
      cases rest
      have gate : s.dev.txq = [] := by simpa [Dev.txEmpty] using empty
      exact .of_dataPath (a.image h) (by simp [a.cmd, cmd]) (by simpa [Dev.dlab, a.lcr] using normal)
        (fun _ => by simpa [dev] using gate) (by simp [a.cmd, cmd])
    · exact a.pollFailed_discipline h rest normal
  · obtain ⟨u, a, rest⟩ := writeStep_accessed (by decide) run
    exact a.respond_discipline h rest normal
  · cases run

/-- A receiving command passes its poll only with RXQ not empty (R226). -/
theorem Accessed.goto_receive_discipline {u : State} {v : Byte} (a : Accessed s u s.dev.lcr v) (h : Discipline s)
    (cmd : s.seq.cmd = .tryReceive ∨ s.seq.cmd = .receiveByte) (dev : u.dev = s.dev) (ready : s.dev.dataReady = true)
    (rest : goto 1 u = .next t) : Discipline t := by
  have other : s.seq.cmd ≠ .setBaud ∧ s.seq.cmd ≠ .configure ∧ s.seq.cmd ≠ .sendByte := by
    rcases cmd with c | c <;> simp [c]
  obtain ⟨notSetBaud, notConfigure, notSend⟩ := other
  have normal := h.normal_of_dataPath ⟨notSetBaud, notConfigure⟩
  have gate : s.dev.rxq ≠ [] := by simpa [Dev.dataReady] using ready
  cases rest
  exact .of_dataPath (a.image h) (by simp [a.cmd, notSetBaud, notConfigure])
    (by simpa [Dev.dlab, a.lcr] using normal) (by simp [a.cmd, notSend]) (fun _ => by simpa [dev] using gate)

theorem execTryReceive_discipline (h : Discipline s) (run : execTryReceive s = .next t) : Discipline t := by
  obtain ⟨⟨-, instr⟩, run⟩ := whileRunning_eq_next.1 run
  have cmd := instr_tryReceive instr
  have normal := h.normal_of_dataPath (by simp [cmd])
  split at run
  · obtain ⟨u, v, a, dev, status, rest⟩ := readLsr_accessed run
    rw [status] at rest
    split at rest
    · next ready => exact a.goto_receive_discipline h (.inl cmd) dev ready rest
    · exact a.respond_discipline h rest normal
  · obtain ⟨u, v, a, rest⟩ := readStep_accessed run
    exact a.respond_discipline h rest normal
  · cases run

theorem execReceiveByte_discipline (h : Discipline s) (run : execReceiveByte s = .next t) : Discipline t := by
  obtain ⟨⟨-, instr⟩, run⟩ := whileRunning_eq_next.1 run
  have cmd := instr_receiveByte instr
  have normal := h.normal_of_dataPath (by simp [cmd])
  split at run
  · obtain ⟨u, v, a, dev, status, rest⟩ := readLsr_accessed run
    rw [status] at rest
    split at rest
    · next ready => exact a.goto_receive_discipline h (.inr cmd) dev ready rest
    · exact a.pollFailed_discipline h rest normal
  · obtain ⟨u, v, a, rest⟩ := readStep_accessed run
    exact a.respond_discipline h rest normal
  · cases run

theorem execPollStatus_discipline (h : Discipline s) (run : execPollStatus s = .next t) : Discipline t := by
  obtain ⟨⟨-, instr⟩, run⟩ := whileRunning_eq_next.1 run
  have normal := h.normal_of_dataPath (by simp [instr_pollStatus instr])
  split at run
  · obtain ⟨u, v, a, rest⟩ := readStep_accessed run
    exact a.respond_discipline h rest normal
  · cases run

theorem exec_running_discipline (h : Discipline s) (run : exec s.seq.instr s = .next t) : Discipline t := by
  have instr : s.seq.instr = s.seq.cmd.instr s.seq.d s.seq.p s.seq.b := rfl
  rw [instr] at run
  cases cmd : s.seq.cmd <;> rw [cmd] at run
  case configure => exact execConfigure_discipline h run
  case setBaud => exact execSetBaud_discipline h run
  case sendByte => exact execSendByte_discipline h run
  case tryReceive => exact execTryReceive_discipline h run
  case receiveByte => exact execReceiveByte_discipline h run
  case pollStatus => exact execPollStatus_discipline h run

end Commands

/-! ### One turn -/

theorem beginTurn_discipline {s : State} (h : Discipline s) : Discipline (beginTurn s) := h.of_frame rfl rfl rfl id id

theorem takeReset_discipline {s : State} (image : s.par.resetImage.lcr.getLsbD 7 = false) : Discipline (takeReset s) :=
  .of_idle image rfl image

theorem Turn.keeps_discipline {s t : State} (turn : Turn s t) (h : Discipline s) (sole : soleOwner s.schedule = true) :
    Discipline t := by
  cases turn with
  | quiet | submit | take => exact h.of_frame rfl rfl rfl id id
  | micro _ _ run => exact exec_running_discipline (beginTurn_discipline h) run
  | grant _ idle => exact .of_start h.resetNormal rfl (by simpa [Seq.expectedDlab, idle] using h.mode)
  | rxArrive => exact h.of_frame rfl rfl rfl id fun _ => by simp
  | rxOverrun _ _ outcome =>
    refine h.of_frame rfl rfl rfl id fun nonempty => ?_
    rcases outcome with rfl | rfl
    · exact nonempty
    · exact replaceLast_ne_nil _ _
  | txDrain _ queued =>
    refine h.of_frame rfl rfl rfl (fun empty => ?_) id
    rw [queued] at empty
    cases empty
  | port foreign => exact absurd (foreign.symm.trans sole) (by decide)
  | reset => exact takeReset_discipline h.resetNormal

theorem MicroStep.schedule_eq {s t : State} (h : MicroStep s t) : t.schedule = s.schedule := by
  obtain ⟨w, u, access, q, -, -, -, -, -, ⟨-, -, rfl⟩ | ⟨-, r, -, rfl⟩⟩ := h <;> exact (portAccess_frame access).schedule

/-- A turn takes its action off the schedule and schedules nothing. -/
theorem Turn.schedule_eq {s t : State} (turn : Turn s t) : t.schedule = s.schedule.tail := by
  cases turn with
  | micro _ busy run => exact (exec_running_micro (s := beginTurn s) busy run).schedule_eq
  | port _ run => exact (portAccess_frame (s := beginTurn s) ((portAccess_eq_busTurn _ _).trans run)).schedule
  | quiet | submit | take | grant | rxArrive | rxOverrun | txDrain | reset => rfl

theorem soleOwner_tail {l : List Action} (h : soleOwner l = true) : soleOwner l.tail = true := by
  cases l with
  | nil => exact h
  | cons a l =>
    simp only [soleOwner, List.all_cons, Bool.and_eq_true] at h
    exact h.2

/-- Settles O52, turn by turn; no turn of a sole owner's schedule is a foreign access. -/
theorem stepKeepsDiscipline : Obligations.StepKeepsDiscipline := by
  intro s t _ h sole next
  have turn := step_turn next
  exact ⟨turn.keeps_discipline h sole, by rw [turn.schedule_eq]; exact soleOwner_tail sole⟩

end Sys2Proof.Machine

/-! PROOFS. The state right after reset (10_state R43). -/

namespace Sys2Proof.Machine

/-- The state after reset is what the reset input leaves, of the default parameters (R300). -/
theorem reset_eq_takeReset : State.reset = takeReset { State.reset with draws := 0 } := rfl

/-- Settles O50: what reset leaves of legal parameters meets both invariants, and the defaults are legal. -/
theorem invariantsHoldAtReset : Obligations.InvariantsHoldAtReset := by
  refine ⟨?_, ?_, rfl⟩ <;> rw [reset_eq_takeReset]
  · exact takeReset_inv (by decide)
  · exact takeReset_discipline (by decide)

/-- With every enable clear irq_o is 0, whatever the line-status condition is (R276). -/
theorem irq_eq_false_of_ier_zero {d : Dev} (h : d.ier = 0) (ls : Bool) : d.irq ls = false := by
  simp [Dev.irq, h]

/-- Settles O47: the decided image field by field; no enable is set, so irq_o is 0. -/
theorem resetValues : Obligations.ResetValues :=
  ⟨rfl, rfl, rfl, rfl, rfl, rfl, rfl, rfl, rfl, rfl, rfl, rfl, rfl, rfl, rfl, irq_eq_false_of_ier_zero rfl _, rfl⟩

end Sys2Proof.Machine

/-! PROOFS. No rule reads GHOST (10_state R38). -/

namespace Sys2Proof.Machine

/-- The same outcome but for the history of a next state. -/
inductive SameButHistory : Result → Result → Prop where
  | next (t : State) (g : Ghost) : SameButHistory (.next t) (.next (t.setGhost g))
  | fault (r : Fault) : SameButHistory (.fault r) (.fault r)
  | refused (r : Refusal) : SameButHistory (.refused r) (.refused r)

/-- Read off the first outcome, the second one is determined but for the history. -/
theorem SameButHistory.outcomes {o o' : Result} (h : SameButHistory o o') :
    (∀ t, o = .next t → ∃ g', o' = .next (t.setGhost g')) ∧ (∀ r, o = .fault r → o' = .fault r) ∧
    (∀ r, o = .refused r → o' = .refused r) := by
  cases h with
  | next t g' =>
    refine ⟨?_, ?_, ?_⟩ <;> rintro _ ⟨⟩
    exact ⟨g', rfl⟩
  | fault r =>
    refine ⟨?_, fun _ eq => eq, ?_⟩ <;> rintro _ ⟨⟩
  | refused r =>
    refine ⟨?_, ?_, fun _ eq => eq⟩ <;> rintro _ ⟨⟩

/-- An operation that does not read GHOST: with any other history it has the same outcome but for the history. -/
def HistoryBlind (f : State → Result) : Prop := ∀ s g, SameButHistory (f s) (f (s.setGhost g))

/-! ### The ways operations are put together -/

theorem SameButHistory.ite {p : Prop} [Decidable p] {o o' q q' : Result} (ho : SameButHistory o o')
    (hq : SameButHistory q q') : SameButHistory (if p then o else q) (if p then o' else q') := by
  split
  · exact ho
  · exact hq

theorem SameButHistory.andThen {o o' : Result} {k : State → Result} (h : SameButHistory o o') (hk : HistoryBlind k) :
    SameButHistory (andThen o k) (andThen o' k) := by
  cases h with
  | next t g => exact hk t g
  | fault r => exact .fault r
  | refused r => exact .refused r

theorem SameButHistory.selectedUnder {dlab : Bool} {s : State} {g : Ghost} {o o' : Result} (h : SameButHistory o o') :
    SameButHistory (selectedUnder dlab s o) (selectedUnder dlab (s.setGhost g) o') :=
  h.ite (.fault _)

theorem SameButHistory.whileRunning {i : Instr} {s : State} {g : Ghost} {o o' : Result} (h : SameButHistory o o') :
    SameButHistory (whileRunning i s o) (whileRunning i (s.setGhost g) o') :=
  h.ite (.fault _)

/-! ### Register operations -/

theorem readDone_blind (off : Offset) (v : Byte) (d : Dev) : HistoryBlind (readDone off v d) :=
  fun s g => .next (((s.record ⟨.read, off, v, s.dev.mode⟩).setDev d).setRdata v)
    ((s.setGhost g).record ⟨.read, off, v, s.dev.mode⟩).ghost

theorem writeDone_blind (off : Offset) (b : Byte) (d : Dev) : HistoryBlind (writeDone off b d) :=
  fun s g => .next ((s.record ⟨.write, off, b, s.dev.mode⟩).setDev d)
    ((s.setGhost g).record ⟨.write, off, b, s.dev.mode⟩).ghost

theorem readDraw_blind (off : Offset) (f : Nat → Byte) : HistoryBlind (readDraw off f) :=
  fun s g => readDone_blind off (f s.draws) s.dev s.advance g

theorem execRdRbr_blind : HistoryBlind execRdRbr := by
  intro s g
  refine .selectedUnder ?_
  simp only [State.setGhost_dev]
  split
  · exact readDone_blind _ _ _ s g
  · exact readDraw_blind _ _ s g

theorem execWrThr_blind (b : Byte) : HistoryBlind (execWrThr b) := fun s g =>
  .selectedUnder (.ite (writeDone_blind _ _ _ s g) (writeDone_blind _ _ _ s.advance g))

theorem execRegister_blind (i : Instr) : HistoryBlind (execRegister i) := by
  intro s g
  cases i with
  | rdRbr => exact execRdRbr_blind s g
  | wrThr b => exact execWrThr_blind b s g
  | rdDll | rdIer | rdDlh => exact .selectedUnder (readDone_blind _ _ _ s g)
  | wrDll | wrDlh => exact .selectedUnder (writeDone_blind _ _ _ s g)
  | wrIer b => exact .selectedUnder (.ite (writeDone_blind _ _ _ s g) (.refused _))
  | wrFcr b => exact .ite (writeDone_blind _ _ _ s g) (.refused _)
  | rdLcr => exact readDone_blind _ _ _ s g
  | wrLcr b => exact writeDone_blind _ _ _ s g
  | rdIir | rdMcr | rdMsr => exact readDraw_blind _ _ s g
  | rdLsr => exact readDraw_blind offLsr (fun n => s.dev.lsr (Config.lsrReserved n)) s g
  | wrMcr | wrLsr | wrMsr | rd7 | wr7 => exact .refused _
  | configure | setBaud | sendByte | tryReceive | receiveByte | pollStatus => exact .fault _

theorem portAccess_blind (w : BusWord) : HistoryBlind (portAccess w) := fun s g =>
  execRegister_blind (decodeBus s.dev.dlab w) s g

/-! ### Micro-steps -/

theorem writeStep_blind {k : State → Result} (hk : HistoryBlind k) (off : Offset) (b : Byte) :
    HistoryBlind (writeStep off b k) :=
  fun s g => (portAccess_blind (busWrite off b) s g).andThen hk

theorem readStep_blind {k : State → Result} (hk : HistoryBlind k) (off : Offset) : HistoryBlind (readStep off k) :=
  fun s g => (portAccess_blind (busRead off) s g).andThen fun u g' => hk (latchT u) g'

theorem goto_blind (k : Nat) : HistoryBlind (goto k) := fun _ g => .next _ g

theorem respond_blind (kind : RspKind) (v : Byte) : HistoryBlind (respond kind v) := fun _ g => .next _ g

theorem respondT_blind : HistoryBlind respondT := fun s g => respond_blind .data s.seq.t s g

theorem pollFailed_blind (k : Nat) : HistoryBlind (pollFailed k) := fun _ g => .ite (.next _ g) (.next _ g)

theorem execConfigure_blind (p : BitVec 3) (d : Divisor) : HistoryBlind (execConfigure p d) := by
  intro s g
  refine .whileRunning ?_
  simp only [State.setGhost_seq]
  split
  · exact writeStep_blind (goto_blind 1) _ _ s g
  · exact writeStep_blind (goto_blind 2) _ _ s g
  · exact writeStep_blind (goto_blind 3) _ _ s g
  · exact readStep_blind (goto_blind 4) _ s g
  · exact writeStep_blind (goto_blind 5) _ _ s g
  · exact writeStep_blind (goto_blind 6) _ _ s g
  · exact writeStep_blind (respond_blind _ _) _ _ s g
  · exact .fault _

theorem execSetBaud_blind (d : Divisor) : HistoryBlind (execSetBaud d) := by
  intro s g
  refine .whileRunning ?_
  simp only [State.setGhost_seq]
  split
  · exact readStep_blind (goto_blind 1) _ s g
  · exact writeStep_blind (goto_blind 2) _ _ s g
  · exact writeStep_blind (goto_blind 3) _ _ s g
  · exact writeStep_blind (goto_blind 4) _ _ s g
  · exact readStep_blind (goto_blind 5) _ s g
  · exact writeStep_blind (respond_blind _ _) _ _ s g
  · exact .fault _

/-- A poll tests only the byte it latched (R225, R226). -/
theorem poll_blind (test : LineStatus → Bool) {k : State → Result} (hk : HistoryBlind k) :
    HistoryBlind (readStep offLsr fun u => if test (lineStatus u.seq.t) = true then goto 1 u else k u) := by
  refine readStep_blind (fun u g => ?_) offLsr
  exact (goto_blind 1 u g).ite (hk u g)

theorem execSendByte_blind (b : Byte) : HistoryBlind (execSendByte b) := by
  intro s g
  refine .whileRunning ?_
  simp only [State.setGhost_seq]
  split
  · exact poll_blind LineStatus.txEmpty (pollFailed_blind 0) s g
  · exact writeStep_blind (respond_blind _ _) _ _ s g
  · exact .fault _

theorem execTryReceive_blind : HistoryBlind execTryReceive := by
  intro s g
  refine .whileRunning ?_
  simp only [State.setGhost_seq]
  split
  · exact poll_blind LineStatus.dataReady (respond_blind .noData 0) s g
  · exact readStep_blind respondT_blind _ s g
  · exact .fault _

theorem execReceiveByte_blind : HistoryBlind execReceiveByte := by
  intro s g
  refine .whileRunning ?_
  simp only [State.setGhost_seq]
  split
  · exact poll_blind LineStatus.dataReady (pollFailed_blind 0) s g
  · exact readStep_blind respondT_blind _ s g
  · exact .fault _

theorem execPollStatus_blind : HistoryBlind execPollStatus := by
  intro s g
  refine .whileRunning ?_
  simp only [State.setGhost_seq]
  split
  · exact readStep_blind respondT_blind _ s g
  · exact .fault _

/-- The running command's micro-step does not read the history. -/
theorem microStep_blind : HistoryBlind microStep := by
  intro s g
  unfold microStep
  simp only [State.setGhost_seq]
  split
  · have instr : s.seq.instr = s.seq.cmd.instr s.seq.d s.seq.p s.seq.b := rfl
    rw [instr]
    cases s.seq.cmd with
    | configure => exact execConfigure_blind _ _ s g
    | setBaud => exact execSetBaud_blind _ s g
    | sendByte => exact execSendByte_blind _ s g
    | tryReceive => exact execTryReceive_blind s g
    | receiveByte => exact execReceiveByte_blind s g
    | pollStatus => exact execPollStatus_blind s g
  · exact .fault _

/-! ### The other agents -/

theorem submit_blind (i : Nat) (w : CmdWord) : HistoryBlind (submit i w) := by
  intro s g
  unfold submit
  split
  · exact .refused _
  · exact .ite (.next _ g) (.fault _)

theorem take_blind (i : Nat) : HistoryBlind (take i) := by
  intro s g
  unfold take
  simp only [State.setGhost_arb]
  split
  · exact .fault _
  · exact .next _ g

theorem grant_blind (i : Nat) : HistoryBlind (grant i) := by
  intro s g
  unfold grant
  simp only [State.setGhost_arb, State.setGhost_seq]
  split
  · split
    · exact .refused _
    · exact .next _ g
  · exact .fault _
  · exact .fault _

theorem rxArrive_blind (b : Byte) : HistoryBlind (rxArrive b) := fun _ g => .ite (.next _ g) (.fault _)

theorem rxOverrun_blind (b : Byte) : HistoryBlind (rxOverrun b) := fun _ g => .ite (.next _ g) (.fault _)

theorem txDrain_blind : HistoryBlind txDrain := by
  intro s g
  unfold txDrain
  simp only [State.setGhost_dev]
  split
  · exact .fault _
  · next b q _ => exact .next _ ⟨g.trace, g.txlog ++ [b]⟩

theorem busTurn_blind (w : BusWord) : HistoryBlind (busTurn w) := by
  intro s g
  rw [← portAccess_eq_busTurn, ← portAccess_eq_busTurn]
  exact portAccess_blind w s g

/-! ### One turn -/

theorem act_blind (a : Action) : HistoryBlind (act a) := by
  intro s g
  cases a with
  | submit i w => exact submit_blind i w s g
  | take i => exact take_blind i s g
  | grant i => exact grant_blind i s g
  | microStep => exact microStep_blind s g
  | rxArrive b => exact rxArrive_blind b s g
  | rxOverrun b => exact rxOverrun_blind b s g
  | txDrain => exact txDrain_blind s g
  | raw w => exact busTurn_blind w s g
  | access dir addr b =>
    simp only [act]
    split
    · exact .fault _
    · exact busTurn_blind _ s g
    · exact busTurn_blind _ s g
  | reset => exact .next (takeReset s) (takeReset s).ghost

theorem ownTurn_blind : HistoryBlind ownTurn := by
  intro s g
  unfold ownTurn
  simp only [State.setGhost_arb, State.setGhost_seq]
  split
  · exact microStep_blind s g
  · exact .next s g
  · exact grant_blind _ s g

theorem beginTurn_setGhost (s : State) (g : Ghost) : beginTurn (s.setGhost g) = (beginTurn s).setGhost g := rfl

theorem step_blind : HistoryBlind step := by
  intro s g
  cases schedule : s.schedule with
  | nil =>
    rw [step_nil schedule, step_nil (s := s.setGhost g) schedule, beginTurn_setGhost]
    exact ownTurn_blind (beginTurn s) g
  | cons a l =>
    rw [step_cons schedule, step_cons (s := s.setGhost g) schedule, beginTurn_setGhost]
    exact act_blind a (beginTurn s) g

/-- Settles O55: a step reads no history. -/
theorem historyIsNeverRead : Obligations.HistoryIsNeverRead := fun s g => (step_blind s g).outcomes

end Sys2Proof.Machine

/-! PROOFS. An access by platform address: the window's eight addresses and the rest (20_memory R66, R67, R77). -/

namespace Sys2Proof.Machine

/-! ### The window -/

@[simp] theorem windowOffset_regAddr (off : Offset) : windowOffset (regAddr off) = some off := by
  have inWindow : Config.uartBase ≤ regAddr off ∧ regAddr off < Config.uartBase + 8 :=
    ⟨Nat.le_add_right _ _, Nat.add_lt_add_left off.isLt _⟩
  rw [windowOffset, if_pos inWindow, regAddr, Nat.add_sub_cancel_left, BitVec.ofNat_toNat, BitVec.setWidth_eq]

theorem windowOffset_eq_none_iff {addr : Nat} :
    windowOffset addr = none ↔ addr < Config.uartBase ∨ Config.uartBase + 8 ≤ addr := by
  rw [windowOffset, ite_eq_right_iff, imp_iff_not (Option.some_ne_none _), not_and_or, not_le, not_lt]

/-! ### The access -/

/-- The bus word of an access at `off`: RegRead(off) or RegWrite(off, b) (R91). -/
def busWordOf (dir : Dir) (off : Offset) (b : Byte) : BusWord :=
  match dir with
  | .read  => busRead off
  | .write => busWrite off b

theorem act_access_of_windowOffset_eq_some {addr : Nat} {off : Offset} (h : windowOffset addr = some off) (dir : Dir) (b : Byte)
    (s : State) : act (.access dir addr b) s = busTurn (busWordOf dir off b) s := by
  cases dir <;> simp only [act, h, busWordOf]

theorem act_access_of_windowOffset_eq_none {addr : Nat} (h : windowOffset addr = none) (dir : Dir) (b : Byte) (s : State) :
    act (.access dir addr b) s = .fault .addressOutsideWindow := by
  simp only [act, h]

theorem beginTurn_of_schedule_cons {s : State} {a : Action} {l : List Action} (h : s.schedule = a :: l) :
    beginTurn s = { s with schedule := l, draws := s.draws + 1 } := by
  rw [beginTurn, h]
  rfl

/-- Settles O26: the eight addresses select the eight offsets, and the others select none. -/
theorem windowAddressesReachRegisters : Obligations.WindowAddressesReachRegisters := by
  intro s dir addr b l schedule
  rw [step_cons schedule]
  constructor
  · rintro off rfl
    have selected : windowOffset (Config.uartBase + off.toNat) = some off := windowOffset_regAddr off
    rw [act_access_of_windowOffset_eq_some selected, beginTurn_of_schedule_cons schedule]
    cases dir <;> rfl
  · intro outside
    exact act_access_of_windowOffset_eq_none (windowOffset_eq_none_iff.mpr outside) dir b (beginTurn s)

end Sys2Proof.Machine

/-! PROOFS. The codec: a bus word is its three fields, a command word its row and its operands, a response word its two fields
(30_encoding R91, R92, R104 to R106, R112, R113). -/

namespace Sys2Proof

/-! ### A bus word from its fields (R91) -/

theorem getLsbD_busWord_off (w : BusWord) (i : Nat) : (BusWord.off w).getLsbD i = (decide (i < 3) && w.getLsbD (8 + i)) := by
  simp [BusWord.off]

theorem busWrite_off_wdata {w : BusWord} (write : BusWord.isWrite w = true) : busWrite (BusWord.off w) (BusWord.wdata w) = w := by
  rw [BusWord.isWrite] at write
  ext i hi
  interval_cases i <;> simp_all [busWrite, BusWord.off, BusWord.wdata]

theorem decodeBus_of_isWrite {w : BusWord} (write : BusWord.isWrite w = true) (dlab : Bool) :
    decodeBus dlab w = decodeBus dlab (busWrite (BusWord.off w) (BusWord.wdata w)) := by
  rw [busWrite_off_wdata write]

/-- The decoder reads RW and OFF of a bus read and ignores its WDATA. -/
theorem decodeBus_of_isRead {w : BusWord} (read : BusWord.isWrite w = false) (dlab : Bool) :
    decodeBus dlab w = decodeBus dlab (busRead (BusWord.off w)) := by
  rw [BusWord.isWrite] at read
  unfold decodeBus
  rw [busRead_rw, busRead_off2, busRead_off1, busRead_off0, read]
  simp only [getLsbD_busWord_off]
  cases w.getLsbD 10 <;> cases w.getLsbD 9 <;> cases w.getLsbD 8 <;> rfl

/-- Settles O5: reads and writes by their fields, then each of the eight offsets. -/
theorem offsetDecodeTable : Obligations.OffsetDecodeTable := by
  intro dlab w
  constructor
  · intro read
    rw [decodeBus_of_isRead read]
    and_intros <;> (intro off; rw [off]; rfl)
  · intro write
    rw [decodeBus_of_isWrite write, Machine.decodeBus_busWrite]
    and_intros <;> (intro off; rw [off]; rfl)

/-- Settles O1: closed words, evaluated. -/
theorem specWordsDecode : Obligations.SpecWordsDecode := by
  unfold Obligations.SpecWordsDecode
  decide

/-! ### A command word from its row and its operands (R104, R105) -/

/-- The encoding of a command with the operands of `w`: the command's row outside its operand fields, `w` inside them. -/
theorem encode_instr_fields (c : Cmd) (w : CmdWord) :
    encode (c.instr (CmdWord.arg w) (CmdWord.ierp w) (CmdWord.byte w)) = .cmd (c.pattern ||| (w &&& ~~~c.mask)) := by
  cases c
  all_goals
    refine congrArg InstrWord.cmd ?_
    ext i hi
    interval_cases i <;> simp [cmdWord, CmdWord.arg, CmdWord.ierp, CmdWord.byte, Cmd.pattern, Cmd.mask]

/-- A row's pattern sets no bit outside its mask. -/
theorem pattern_and_mask (c : Cmd) : c.pattern &&& c.mask = c.pattern := by
  cases c <;> decide

/-- A word matches a row exactly when it is the encoding of that row's command with the word's own operands. -/
theorem matches_iff_encode (c : Cmd) (w : CmdWord) :
    c.matches w = true ↔ encode (c.instr (CmdWord.arg w) (CmdWord.ierp w) (CmdWord.byte w)) = .cmd w := by
  rw [encode_instr_fields, InstrWord.cmd.injEq, Cmd.matches, beq_iff_eq]
  constructor
  · intro row
    rw [← row, ← BitVec.and_or_distrib_left, BitVec.or_not_self, BitVec.and_allOnes]
  · intro word
    have masked := congrArg (· &&& c.mask) word
    simpa [BitVec.and_or_distrib_right, BitVec.and_assoc, pattern_and_mask] using masked.symm

theorem decodeCmd_eq_ok_iff {w : CmdWord} {i : Instr} :
    decodeCmd w = .ok i ↔ ∃ c, cmdOf w = .ok c ∧ c.instr (CmdWord.arg w) (CmdWord.ierp w) (CmdWord.byte w) = i := by
  unfold decodeCmd
  cases cmdOf w <;> simp

/-- The operand fields of a command's encoding are the operands it takes. -/
theorem instr_fields_of_encode {c : Cmd} {d : Divisor} {p : BitVec 3} {b : Byte} {w : CmdWord}
    (word : encode (c.instr d p b) = .cmd w) : c.instr (CmdWord.arg w) (CmdWord.ierp w) (CmdWord.byte w) = c.instr d p b := by
  cases c <;> cases word <;> simp [Cmd.instr]

theorem decodeCmd_encode {c : Cmd} {d : Divisor} {p : BitVec 3} {b : Byte} {w : CmdWord}
    (word : encode (c.instr d p b) = .cmd w) : decodeCmd w = .ok (c.instr d p b) := by
  have fields := instr_fields_of_encode word
  rw [← fields] at word
  exact decodeCmd_eq_ok_iff.mpr ⟨c, cmdOf_eq_ok ((matches_iff_encode c w).mpr word), fields⟩

/-! ### The codec over both formats -/

theorem dlab_of_selected {i : Instr} {dlab bit : Bool} (selected : i.selectedBy = none ∨ i.selectedBy = some dlab)
    (bound : i.selectedBy = some bit) : dlab = bit := by
  simpa [bound, eq_comm] using selected

/-- Settles O2: the selecting mode fixes `dlab` at offsets 0 and 1; a read's word is then closed, a write's decode is known offset by
offset, and a command's word matches its row. -/
theorem decodeEncodeAgree : Obligations.DecodeEncodeAgree := by
  intro i dlab selected
  cases i
  case rdRbr | rdDll | rdIer | rdDlh =>
    obtain rfl := dlab_of_selected selected rfl
    rfl
  case wrThr b | wrDll b | wrIer b | wrDlh b =>
    obtain rfl := dlab_of_selected selected rfl
    exact congrArg Except.ok (Machine.decodeBus_busWrite _ _ b)
  case rdIir | rdLcr | rdMcr | rdLsr | rdMsr | rd7 => rfl
  case wrFcr b | wrLcr b | wrMcr b | wrLsr b | wrMsr b | wr7 b => exact congrArg Except.ok (Machine.decodeBus_busWrite dlab _ b)
  case configure p d => exact decodeCmd_encode (c := .configure) (b := 0) rfl
  case setBaud d => exact decodeCmd_encode (c := .setBaud) (p := 0) (b := 0) rfl
  case sendByte b => exact decodeCmd_encode (c := .sendByte) (d := 0) (p := 0) rfl
  case tryReceive => exact decodeCmd_encode (c := .tryReceive) (d := 0) (p := 0) (b := 0) rfl
  case receiveByte => exact decodeCmd_encode (c := .receiveByte) (d := 0) (p := 0) (b := 0) rfl
  case pollStatus => exact decodeCmd_encode (c := .pollStatus) (d := 0) (p := 0) (b := 0) rfl

/-- `i` is an operation of the bus word `w` under `dlab`: `w` is its encoding, and `dlab` or either mode selects it. -/
def EncodesSelected (dlab : Bool) (w : InstrWord) (i : Instr) : Prop :=
  encode i = w ∧ (i.selectedBy = none ∨ i.selectedBy = some dlab)

theorem decodeBus_busRead_canonical (dlab : Bool) (off : Offset) :
    EncodesSelected dlab (.bus (busRead off)) (decodeBus dlab (busRead off)) := by
  unfold EncodesSelected
  revert dlab off
  decide

theorem offset_cases (off : Offset) : off = 0 ∨ off = 1 ∨ off = 2 ∨ off = 3 ∨ off = 4 ∨ off = 5 ∨ off = 6 ∨ off = 7 := by
  revert off
  decide

theorem decodeBus_busWrite_canonical (dlab : Bool) (off : Offset) (b : Byte) :
    EncodesSelected dlab (.bus (busWrite off b)) (decodeBus dlab (busWrite off b)) := by
  rw [Machine.decodeBus_busWrite]
  obtain rfl | rfl | rfl | rfl | rfl | rfl | rfl | rfl := offset_cases off
  case inl | inr.inl => cases dlab <;> exact ⟨rfl, .inr rfl⟩
  all_goals exact ⟨rfl, .inl rfl⟩

theorem decodeBus_canonical (dlab : Bool) (w : BusWord) :
    EncodesSelected dlab (InstrWord.bus w).canonical (decodeBus dlab w) := by
  cases write : BusWord.isWrite w with
  | false =>
    rw [decodeBus_of_isRead write]
    simpa [InstrWord.canonical, write] using decodeBus_busRead_canonical dlab (BusWord.off w)
  | true =>
    simpa [InstrWord.canonical, write, busWrite_off_wdata write] using
      decodeBus_busWrite_canonical dlab (BusWord.off w) (BusWord.wdata w)

theorem selectedBy_instr (c : Cmd) (d : Divisor) (p : BitVec 3) (b : Byte) : (c.instr d p b).selectedBy = none := by
  cases c <;> rfl

/-- Settles O3: a bus word by its canonical form, a command word by the row it matches. -/
theorem encodeDecodeCanonical : Obligations.EncodeDecodeCanonical := by
  intro dlab w i decoded
  cases w with
  | bus w =>
    cases decoded
    exact decodeBus_canonical dlab w
  | cmd w =>
    obtain ⟨c, row, rfl⟩ := decodeCmd_eq_ok_iff.mp decoded
    exact ⟨(matches_iff_encode c w).mp (matches_of_cmdOf row), .inl (selectedBy_instr c _ _ _)⟩

/-! ### Words that are no command (R106) -/

theorem wellFormed_iff_cmdOf {w : CmdWord} : CmdWord.wellFormed w = true ↔ ∃ c, cmdOf w = .ok c := by
  refine ⟨fun oneRow => ?_, fun ⟨_, row⟩ => wellFormed_of_cmdOf row⟩
  rw [CmdWord.wellFormed, beq_iff_eq, List.length_eq_one_iff] at oneRow
  obtain ⟨c, rows⟩ := oneRow
  have row : c ∈ Cmd.all.filter (·.matches w) := by rw [rows]; exact List.mem_singleton_self c
  exact ⟨c, cmdOf_eq_ok (List.mem_filter.mp row).2⟩

theorem wellFormed_iff_decodeCmd {w : CmdWord} : CmdWord.wellFormed w = true ↔ ∃ i, decodeCmd w = .ok i := by
  rw [wellFormed_iff_cmdOf]
  refine ⟨fun ⟨c, row⟩ => ⟨_, decodeCmd_eq_ok_iff.mpr ⟨c, row, rfl⟩⟩, fun ⟨_, decoded⟩ => ?_⟩
  obtain ⟨c, row, -⟩ := decodeCmd_eq_ok_iff.mp decoded
  exact ⟨c, row⟩

theorem cmdOf_eq_error_of_not_wellFormed {w : CmdWord} (h : CmdWord.wellFormed w = false) : ∃ e, cmdOf w = .error e := by
  cases row : cmdOf w with
  | error e => exact ⟨e, rfl⟩
  | ok c => simp [wellFormed_of_cmdOf row] at h

/-- Settles O4: the decoder answers on exactly the words with one row, and a submission asks it first. -/
theorem commandWordsAreExactlyTheTableRows : Obligations.CommandWordsAreExactlyTheTableRows := by
  refine fun w => ⟨wellFormed_iff_decodeCmd, fun malformed s i l schedule => ?_⟩
  obtain ⟨e, noRow⟩ := cmdOf_eq_error_of_not_wellFormed malformed
  refine ⟨e, ?_⟩
  rw [Machine.step_cons schedule]
  simp only [Machine.act, Machine.submit, noRow]

/-! ### Response words (R112, R113) -/

@[simp] theorem rspKindOf_encodeRsp (r : Response) : rspKindOf (encodeRsp r) = r.kind := by
  cases r with | mk kind data => cases kind <;> simp [rspKindOf, encodeRsp, RspKind.code]

@[simp] theorem encodeRsp_data (r : Response) : (encodeRsp r).extractLsb' 0 8 = r.data := by
  ext i hi
  interval_cases i <;> simp [encodeRsp]

theorem rspKindOf_code_bits (w : RspWord) : (rspKindOf w).code[0] = w[8] ∧ (rspKindOf w).code[1] = w[9] := by
  simp only [← BitVec.getLsbD_eq_getElem, rspKindOf]
  cases w.getLsbD 9 <;> cases w.getLsbD 8 <;> exact ⟨rfl, rfl⟩

theorem encodeRsp_fields (w : RspWord) : encodeRsp ⟨rspKindOf w, w.extractLsb' 0 8⟩ = w := by
  ext i hi
  interval_cases i <;> simp [encodeRsp, rspKindOf_code_bits]

theorem response_wellFormed_iff {r : Response} : r.wellFormed = true ↔ r.kind = .data ∨ r.data = 0#8 := by
  simp [Response.wellFormed]

theorem decodeRsp_eq_some_iff {w : RspWord} {r : Response} : decodeRsp w = some r ↔
    r = ⟨rspKindOf w, w.extractLsb' 0 8⟩ ∧ r.wellFormed = true := by
  rw [response_wellFormed_iff]
  constructor
  · intro decoded
    obtain ⟨legal, fields⟩ := Option.ite_none_right_eq_some.mp decoded
    cases fields
    exact ⟨rfl, legal⟩
  · rintro ⟨rfl, legal⟩
    exact if_pos legal

/-- Settles O6: a word decodes to its own two fields, where they are legal. -/
theorem responseWordsRoundTrip : Obligations.ResponseWordsRoundTrip := by
  refine ⟨fun r legal => decodeRsp_eq_some_iff.mpr ⟨by simp, legal⟩, fun w r decoded => ?_⟩
  obtain ⟨rfl, legal⟩ := decodeRsp_eq_some_iff.mp decoded
  exact ⟨encodeRsp_fields w, legal⟩

end Sys2Proof

/-! PROOFS. The register operations: what each answers, what it changes and what it leaves (40_register_ops R130 to R149). -/

namespace Sys2Proof.Machine

/-! ### The ends of an operation, in the words of the statements -/

theorem readDone_eq (off : Offset) (v : Byte) (d : Dev) (s : State) :
    readDone off v d s = .next { s.withRead off v with dev := d } := rfl

theorem writeDone_eq (off : Offset) (b : Byte) (d : Dev) (s : State) :
    writeDone off b d s = .next { s.withWrite off b with dev := d } := rfl

theorem readDraw_eq (off : Offset) (f : Nat → Byte) (s : State) :
    readDraw off f s = .next { s.withRead off (f s.draws) with draws := s.draws + 1 } := rfl

/-! ### Condition bits, reserved bits and the divisor -/

theorem dataReady_eq (d : Dev) : d.dataReady = decide (1 ≤ d.rxq.length) := by
  unfold Dev.dataReady
  cases d.rxq <;> simp

theorem txEmpty_eq (d : Dev) : d.txEmpty = decide (d.txq.length = 0) := by
  unfold Dev.txEmpty
  cases d.txq <;> simp

/-- {hi, lo} as a number (R68, R102). -/
theorem divisorOf_toNat (hi lo : Byte) : (divisorOf hi lo).toNat = 256 * hi.toNat + lo.toNat := by
  have high : (hi.zeroExtend 16 <<< 8).toNat = hi.toNat <<< 8 := by
    rw [BitVec.toNat_shiftLeft, BitVec.toNat_setWidth_of_le (by decide), Nat.shiftLeft_eq, Nat.mod_eq_of_lt]
    omega
  have low : (lo.zeroExtend 16).toNat = lo.toNat := BitVec.toNat_setWidth_of_le (by decide)
  rw [divisorOf, BitVec.toNat_or, high, low, ← Nat.shiftLeft_add_eq_or_of_lt lo.isLt, Nat.shiftLeft_eq, Nat.mul_comm]

/-- Bits 7:3 are 0 exactly in the numbers below 8. -/
theorem bits7to3_eq_zero_iff (b : Byte) : b &&& 0xF8 = 0 ↔ b.toNat < 8 := by
  revert b
  decide

theorem wellFormed_wrIer_iff (b : Byte) : (Instr.wrIer b).wellFormed = true ↔ b.toNat < 8 := by
  rw [← bits7to3_eq_zero_iff]
  exact beq_iff_eq

theorem wellFormed_wrFcr_iff (b : Byte) : (Instr.wrFcr b).wellFormed = true ↔ b.extractLsb' 3 3 = 0 := by
  revert b
  decide

/-! ### The line-control register -/

/-- Settles O17: WR_LCR ends as a write of all eight bits, and no other register operation touches LCR. -/
theorem writeLcrSetsMode : Obligations.WriteLcrSetsMode := by
  refine ⟨fun s b => ⟨decodeBus_busWrite _ 3 b, writeDone_eq 3 b _ s, ?_⟩, ?_⟩
  · intro t run
    cases run
    rfl
  · intro s t w run changed
    by_cases isWrite : ∃ b, decodeBus s.dev.dlab w = .wrLcr b
    · obtain ⟨b, selected⟩ := isWrite
      rw [selected] at run ⊢
      cases run
      rfl
    · rw [← execRegister_decodeBus] at run
      exact absurd (execRegister_lcr run fun b selected => isWrite ⟨b, selected⟩) changed

/-- Settles O16: the byte WR_LCR leaves in LCR is the one RD_LCR answers. -/
theorem readLcrAnswersLcr : Obligations.ReadLcrAnswersLcr := by
  refine fun s => ⟨rfl, readDone_eq 3 s.dev.lcr s.dev s, fun b t written => ?_⟩
  cases written
  exact ⟨_, readDone_eq 3 b _ _, rfl⟩

/-! ### The data register -/

theorem execRdRbr_of_cons {s : State} (normal : s.dev.dlab = false) {v : Byte} {q : List Byte} (queued : s.dev.rxq = v :: q) :
    exec .rdRbr s = .next { s.withRead 0 v with dev := { s.dev with rxq := q } } := by
  simp only [exec, execRdRbr, selectedUnder_pos normal, queued]
  exact readDone_eq 0 v _ s

theorem execRdRbr_of_nil {s : State} (normal : s.dev.dlab = false) (empty : s.dev.rxq = []) :
    exec .rdRbr s = .next { s.withRead 0 (Config.emptyRxByte s.draws) with draws := s.draws + 1 } := by
  simp only [exec, execRdRbr, selectedUnder_pos normal, empty]
  exact readDraw_eq 0 Config.emptyRxByte s

/-- Settles O7: a byte queued is taken, and an empty queue stays empty. -/
theorem readRxTakesOldestByte : Obligations.ReadRxTakesOldestByte := by
  intro s normal
  refine ⟨by rw [normal]; rfl, fun v q queued => execRdRbr_of_cons normal queued,
    fun empty => ⟨_, execRdRbr_of_nil normal empty⟩, fun t run => ?_⟩
  cases queue : s.dev.rxq with
  | nil =>
    rw [execRdRbr_of_nil normal queue] at run
    cases run
    simp [dataReady_eq, State.withRead, queue]
  | cons v q =>
    rw [execRdRbr_of_cons normal queue] at run
    cases run
    simp [dataReady_eq]

theorem execWrThr_of_room {s : State} (normal : s.dev.dlab = false) (room : s.dev.txq.length < s.dev.cap s.par) (b : Byte) :
    exec (.wrThr b) s = .next { s.withWrite 0 b with dev := { s.dev with txq := s.dev.txq ++ [b] } } := by
  simp only [exec, execWrThr, selectedUnder_pos normal, if_pos room]
  exact writeDone_eq 0 b _ s

theorem execWrThr_of_full {s : State} (normal : s.dev.dlab = false) (full : s.dev.cap s.par ≤ s.dev.txq.length) (b : Byte) :
    ∃ q, (q = s.dev.txq ∨ q = replaceLast s.dev.txq b) ∧
      exec (.wrThr b) s = .next { s.withWrite 0 b with dev := { s.dev with txq := q }, draws := s.draws + 1 } := by
  refine ⟨_, ite_eq_or_eq (Config.fullTxLosesNew s.draws = true) _ _, ?_⟩
  simp only [exec, execWrThr, selectedUnder_pos normal, if_neg (Nat.not_lt.2 full)]
  exact writeDone_eq 0 b _ s.advance

/-- Settles O8: at a full queue either free choice leaves the queue non-empty, the capacity being positive. -/
theorem writeTxAppends : Obligations.WriteTxAppends := by
  intro s b normal
  refine ⟨by rw [normal]; exact decodeBus_busWrite false 0 b, fun room => execWrThr_of_room normal room b,
    fun full => execWrThr_of_full normal full b, fun positive t run => ?_⟩
  rcases Nat.lt_or_ge s.dev.txq.length (s.dev.cap s.par) with room | full
  · rw [execWrThr_of_room normal room] at run
    cases run
    simp [txEmpty_eq]
  · obtain ⟨q, outcome, write⟩ := execWrThr_of_full normal full b
    rw [write] at run
    cases run
    have nonempty : q ≠ [] := by
      rcases outcome with rfl | rfl
      · exact List.ne_nil_of_length_pos (Nat.lt_of_lt_of_le positive full)
      · exact replaceLast_ne_nil _ _
    simpa [txEmpty_eq] using nonempty

/-! ### The divisor latch -/

/-- Settles O9: in DivisorAccess the two offsets select the latch, and its reads leave the device as it is. -/
theorem divisorLatchReads : Obligations.DivisorLatchReads := by
  intro s divisor
  refine ⟨by rw [divisor]; rfl, by rw [divisor]; rfl, ?_, ?_⟩
  · exact (selectedUnder_pos divisor _).trans (readDone_eq 0 s.dev.dll s.dev s)
  · exact (selectedUnder_pos divisor _).trans (readDone_eq 1 s.dev.dlh s.dev s)

/-- Settles O10: the divisor in use becomes the number the two latch bytes spell. -/
theorem writeDllAppliesDivisor : Obligations.WriteDllAppliesDivisor := by
  intro s b divisor
  refine ⟨by rw [divisor]; exact decodeBus_busWrite true 0 b, divisorOf s.dev.dlh b, divisorOf_toNat _ _, ?_⟩
  exact (selectedUnder_pos divisor _).trans (writeDone_eq 0 b _ s)

theorem execWrDlh_eq {s : State} (divisor : s.dev.dlab = true) (b : Byte) :
    exec (.wrDlh b) s = .next { s.withWrite 1 b with
      dev := { s.dev with
        dlh := b
        baudActive := if s.par.dlhWriteApplies then divisorOf b s.dev.dll else s.dev.baudActive } } :=
  (selectedUnder_pos divisor _).trans (writeDone_eq 1 b _ s)

/-- Settles O11, by the two values of DLH_WRITE_APPLIES. -/
theorem writeDlhFillsLatch : Obligations.WriteDlhFillsLatch := by
  intro s b divisor
  refine ⟨by rw [divisor]; exact decodeBus_busWrite true 1 b, fun keeps => ?_, fun applies =>
    ⟨divisorOf b s.dev.dll, divisorOf_toNat _ _, ?_⟩⟩
  · simp [execWrDlh_eq divisor, keeps]
  · simp [execWrDlh_eq divisor, applies]

/-! ### The interrupt-enable register -/

/-- Settles O12: Inv holds bits 7:3 of IER at 0. -/
theorem readIerAnswersIer : Obligations.ReadIerAnswersIer := by
  intro s normal
  have read : exec .rdIer s = .next (s.withRead 1 s.dev.ier) :=
    (selectedUnder_pos normal _).trans (readDone_eq 1 s.dev.ier s.dev s)
  refine ⟨by rw [normal]; rfl, read, fun inv t run => ?_⟩
  rw [read] at run
  cases run
  exact (bits7to3_eq_zero_iff _).mp inv.ierLegal

theorem execWrIer_of_legal {s : State} (normal : s.dev.dlab = false) {b : Byte} (legal : b.toNat < 8) :
    exec (.wrIer b) s = .next { s.withWrite 1 b with dev := { s.dev with ier := b } } := by
  simp only [exec, execWrIer, selectedUnder_pos normal, if_pos ((wellFormed_wrIer_iff b).mpr legal)]
  exact writeDone_eq 1 b _ s

/-- Settles O13: the byte's reserved bits decide, and with IER 0 no interrupt term is enabled. -/
theorem writeIerStoresEnables : Obligations.WriteIerStoresEnables := by
  intro s b normal
  refine ⟨by rw [normal]; exact decodeBus_busWrite false 1 b, execWrIer_of_legal normal, fun reserved => ?_, fun t run => ?_⟩
  · have illegal := mt (wellFormed_wrIer_iff b).mp (Nat.not_lt.mpr reserved)
    simp only [exec, execWrIer, selectedUnder_pos normal, if_neg illegal]
  · rw [execWrIer_of_legal normal (by decide)] at run
    cases run
    exact irq_eq_false_of_ier_zero rfl _

/-! ### The FIFO-control register -/

/-- The shadow keeps the enable and the trigger and reads the pulses as 0 (R24, R139). -/
theorem fcrShadow_writeFcr (d : Dev) (b : Byte) : (d.writeFcr b).fcrShadow = b &&& 0xC1 := by
  ext i hi
  interval_cases i <;> simp [Dev.fcrShadow, Dev.writeFcr]

theorem execWrFcr_of_legal {b : Byte} (legal : b.extractLsb' 3 3 = 0) (s : State) :
    exec (.wrFcr b) s = .next { s.withWrite 2 b with dev := s.dev.writeFcr b } := by
  simp only [exec, execWrFcr, if_pos ((wellFormed_wrFcr_iff b).mpr legal)]
  exact writeDone_eq 2 b _ s

/-- Settles O15: the reserved bits decide, and the device left is `Dev.writeFcr`. -/
theorem writeFcrControlsFifo : Obligations.WriteFcrControlsFifo := by
  intro s b
  refine ⟨decodeBus_busWrite _ 2 b, fun reserved => ?_, fun legal =>
    ⟨s.dev.writeFcr b, execWrFcr_of_legal legal s, ?_, fcrShadow_writeFcr s.dev b, fun pulse => ?_, fun pulse => ?_⟩⟩
  · simp only [exec, execWrFcr, if_neg (mt (wellFormed_wrFcr_iff b).mp reserved)]
  · simp [Dev.writeFcr]
  · simp [Dev.dataReady, Dev.writeFcr, pulse]
  · simp [Dev.txEmpty, Dev.writeFcr, pulse]

/-! ### Line status, and the registers without a modelled value -/

/-- Settles O18: the composed byte's two defined bits are the condition bits of this instant. -/
theorem readLsrComposesStatus : Obligations.ReadLsrComposesStatus := by
  intro s
  refine ⟨rfl, _, readDraw_eq 5 (fun n => s.dev.lsr (Config.lsrReserved n)) s, ?_⟩
  have bits := lineStatus_lsr s.dev (Config.lsrReserved s.draws)
  rw [lineStatus, LineStatus.mk.injEq, dataReady_eq, txEmpty_eq] at bits
  obtain ⟨bit0, bit5⟩ := bits
  rw [bit0, bit5]
  exact ⟨decide_eq_true_iff, decide_eq_true_iff⟩

/-- Settles O14: each of the three reads is a draw of its own free byte. -/
theorem unmodelledReadsComplete : Obligations.UnmodelledReadsComplete := fun s =>
  ⟨⟨_, readDraw_eq 2 Config.iirByte s⟩, ⟨_, readDraw_eq 4 Config.mcrByte s⟩, ⟨_, readDraw_eq 6 Config.msrByte s⟩⟩

/-- Settles O19: the five arms of `exec` that answer a refusal outright. -/
theorem operationsWithoutMeaningAreRefused : Obligations.OperationsWithoutMeaningAreRefused :=
  fun _ _ => ⟨rfl, rfl, rfl, rfl, rfl⟩

end Sys2Proof.Machine

/-! PROOFS. A bus word on the port: one step, one TRACE entry (40_register_ops R150, R151). -/

namespace Sys2Proof.Machine

/-! ### The step -/

/-- Settles O22: a raw word's turn and a micro-step's access decode alike. -/
theorem stepRunsBusWord : Obligations.StepRunsBusWord := by
  refine ⟨fun s w l schedule => ?_, fun s off => execRegister_decodeBus _ (busRead off) s,
    fun s off b => execRegister_decodeBus _ (busWrite off b) s⟩
  rw [step_cons schedule, beginTurn_of_schedule_cons schedule]
  rfl

/-! ### The entry -/

/-- The TRACE entry of the bus word `w`, where a read returns `v` and the mode before is `m` (R151). -/
def busEntry (w : BusWord) (v : Byte) (m : Mode) : TraceEntry :=
  ⟨if BusWord.isWrite w then .write else .read, BusWord.off w, if BusWord.isWrite w then BusWord.wdata w else v, m⟩

/-- TRACE of `t` is that of `s` and the entry of `w`. -/
def Records (w : BusWord) (s t : State) : Prop := t.ghost.trace = s.ghost.trace ++ [busEntry w t.rdata s.dev.mode]

theorem readDone_records {off : Offset} {v : Byte} {d : Dev} {s t : State} (h : readDone off v d s = .next t) :
    Records (busRead off) s t := by
  cases h
  simp [Records, busEntry]

theorem readDraw_records {off : Offset} {f : Nat → Byte} {s t : State} (h : readDraw off f s = .next t) :
    Records (busRead off) s t := readDone_records (s := s.advance) h

theorem writeDone_records {off : Offset} {b : Byte} {d : Dev} {s t : State} (h : writeDone off b d s = .next t) :
    Records (busWrite off b) s t := by
  cases h
  simp [Records, busEntry]

/-- A register operation that completes records the bus word that encodes it. -/
theorem execRegister_records {i : Instr} {w : BusWord} {s t : State} (word : encode i = .bus w)
    (h : execRegister i s = .next t) : Records w s t := by
  cases i <;> cases word
  case rdRbr =>
    obtain ⟨-, h⟩ := selectedUnder_eq_next.1 h
    split at h
    · exact readDone_records h
    · exact readDraw_records h
  case wrThr b =>
    obtain ⟨-, h⟩ := selectedUnder_eq_next.1 h
    split at h
    · exact writeDone_records h
    · exact writeDone_records (s := s.advance) h
  case wrIer b =>
    obtain ⟨-, h⟩ := selectedUnder_eq_next.1 h
    split at h
    · exact writeDone_records h
    · cases h
  case wrFcr b =>
    simp only [execRegister, execWrFcr] at h
    split at h
    · exact writeDone_records h
    · cases h
  case rdDll | rdIer | rdDlh => exact readDone_records (selectedUnder_eq_next.1 h).2
  case wrDll b | wrDlh b => exact writeDone_records (selectedUnder_eq_next.1 h).2
  case rdLcr => exact readDone_records h
  case wrLcr b => exact writeDone_records h
  case rdIir | rdMcr | rdMsr => exact readDraw_records h
  case rdLsr => exact readDraw_records (f := fun n => s.dev.lsr (Config.lsrReserved n)) h
  case wrMcr b | wrLsr b | wrMsr b | rd7 | wr7 b => cases h

/-- The ignored WDATA of a read is not recorded (R91). -/
theorem busEntry_of_isRead {w : BusWord} (read : BusWord.isWrite w = false) : busEntry (busRead (BusWord.off w)) = busEntry w := by
  funext v m
  simp [busEntry, read]

/-- Settles O21: the operation a bus word selects is encoded by the word's canonical form, which has the word's entry. -/
theorem everyOperationIsRecorded : Obligations.EveryOperationIsRecorded := by
  intro s t w run
  show Records w s t
  rw [← execRegister_decodeBus] at run
  have recorded := execRegister_records (decodeBus_canonical s.dev.dlab w).1 run
  cases write : BusWord.isWrite w with
  | true => simpa [write] using recorded
  | false => simpa [write, Records, busEntry_of_isRead write] using recorded

end Sys2Proof.Machine

/-! PROOFS. SET_BAUD and its two LCR operations ENTER_DA and EXIT_DA (41_divisor_latch R182 to R186). -/

namespace Sys2Proof.Machine

/-! ### The mode -/

theorem mode_eq_normal_iff {d : Dev} : d.mode = .normal ↔ d.dlab = false := by
  unfold Dev.mode
  cases d.dlab <;> simp

theorem mode_eq_divisorAccess_iff {d : Dev} : d.mode = .divisorAccess ↔ d.dlab = true := by
  unfold Dev.mode
  cases d.dlab <;> simp

/-! ### A micro-step: one access, then the sequencer moves -/

theorem readLcr_goto (k : Nat) (s : State) :
    readLcrStep (goto k) s = .next { s.withRead 3 s.dev.lcr with seq := { s.seq with step := k, t := s.dev.lcr } } := rfl

theorem regWrite_lcr_eq (b : Byte) (s : State) :
    regWrite offLcr b s = .next { s.withWrite 3 b with dev := { s.dev with lcr := b } } :=
  (regWrite_lcr b s).trans (writeDone_eq 3 b _ s)

theorem regWrite_dlh_eq {s : State} (divisor : s.dev.dlab = true) (b : Byte) :
    regWrite offDlh b s = .next { s.withWrite 1 b with
      dev := { s.dev with
        dlh := b
        baudActive := if s.par.dlhWriteApplies then divisorOf b s.dev.dll else s.dev.baudActive } } :=
  (regWrite_dlh divisor b).trans (execWrDlh_eq divisor b)

theorem regWrite_dll_eq {s : State} (divisor : s.dev.dlab = true) (b : Byte) :
    regWrite offDll b s = .next { s.withWrite 0 b with
      dev := { s.dev with dll := b, baudActive := divisorOf s.dev.dlh b } } :=
  (regWrite_dll divisor b).trans ((selectedUnder_pos divisor _).trans (writeDone_eq 0 b _ s))

theorem writeStep_goto {off : Offset} {b : Byte} {d : Dev} {s : State}
    (access : regWrite off b s = .next { s.withWrite off b with dev := d }) (k : Nat) :
    writeStep off b (goto k) s = .next { s.withWrite off b with dev := d, seq := { s.seq with step := k } } := by
  rw [writeStep, access]
  rfl

theorem writeStep_respond {off : Offset} {b : Byte} {d : Dev} {s : State}
    (access : regWrite off b s = .next { s.withWrite off b with dev := d }) (kind : RspKind) (v : Byte) :
    writeStep off b (respond kind v) s = .next { s.withWrite off b with
      dev := d
      seq := { s.seq with phase := .idle }
      arb := { s.arb with resp := mapPut s.seq.req ⟨kind, v⟩ s.arb.resp } } := by
  rw [writeStep, access]
  rfl

/-! ### SET_BAUD, one micro-step at a time (R184) -/

section MicroSteps
variable {s : State} {d : Divisor}

/-- B0 and B4, the first half of ENTER_DA and of EXIT_DA. -/
theorem exec_setBaud_readLcr {k : Nat} (half : k = 0 ∨ k = 4) (here : s.atStep (.setBaud d) k) :
    exec (.setBaud d) s =
      .next { s.withRead 3 s.dev.lcr with seq := { s.seq with step := k + 1, t := s.dev.lcr } } := by
  obtain ⟨busy, instr, step⟩ := here
  rw [exec, execSetBaud, whileRunning_pos busy instr, step]
  rcases half with rfl | rfl
  · exact readLcr_goto 1 s
  · exact readLcr_goto 5 s

/-- B1, the second half of ENTER_DA. -/
theorem exec_setBaud_setDlab (here : s.atStep (.setBaud d) 1) :
    exec (.setBaud d) s = .next { s.withWrite 3 (setDlab s.seq.t) with
      dev := { s.dev with lcr := setDlab s.seq.t }
      seq := { s.seq with step := 2 } } := by
  obtain ⟨busy, instr, step⟩ := here
  rw [exec, execSetBaud, whileRunning_pos busy instr, step]
  exact writeStep_goto (regWrite_lcr_eq _ s) 2

/-- B2 writes the latched divisor's high byte to DLH. -/
theorem exec_setBaud_writeDlh (here : s.atStep (.setBaud d) 2) (divisor : s.dev.dlab = true) :
    exec (.setBaud d) s = .next { s.withWrite 1 (divHi d) with
      dev := { s.dev with
        dlh := divHi d
        baudActive := if s.par.dlhWriteApplies then divisorOf (divHi d) s.dev.dll else s.dev.baudActive }
      seq := { s.seq with step := 3 } } := by
  obtain ⟨busy, instr, step⟩ := here
  obtain ⟨-, rfl⟩ := instr_setBaud instr
  rw [exec, execSetBaud, whileRunning_pos busy instr, step]
  exact writeStep_goto (regWrite_dlh_eq divisor _) 3

/-- B3 writes its low byte to DLL, which loads BAUD_ACTIVE. -/
theorem exec_setBaud_writeDll (here : s.atStep (.setBaud d) 3) (divisor : s.dev.dlab = true) :
    exec (.setBaud d) s = .next { s.withWrite 0 (divLo d) with
      dev := { s.dev with dll := divLo d, baudActive := divisorOf s.dev.dlh (divLo d) }
      seq := { s.seq with step := 4 } } := by
  obtain ⟨busy, instr, step⟩ := here
  obtain ⟨-, rfl⟩ := instr_setBaud instr
  rw [exec, execSetBaud, whileRunning_pos busy instr, step]
  exact writeStep_goto (regWrite_dll_eq divisor _) 4

/-- B5, the second half of EXIT_DA, and the response. -/
theorem exec_setBaud_clearDlab (here : s.atStep (.setBaud d) 5) :
    exec (.setBaud d) s = .next { s.withWrite 3 (clearDlab s.seq.t) with
      dev := { s.dev with lcr := clearDlab s.seq.t }
      seq := { s.seq with phase := .idle }
      arb := { s.arb with resp := mapPut s.seq.req ⟨.done, 0⟩ s.arb.resp } } := by
  obtain ⟨busy, instr, step⟩ := here
  have run : exec (.setBaud d) s = writeStep offLcr (clearDlab s.seq.t) (respond .done 0) s := by
    simp only [exec, execSetBaud, whileRunning_pos busy instr, step, exitDaStep]
  exact run.trans (writeStep_respond (regWrite_lcr_eq _ s) .done 0)

end MicroSteps

/-- Settles O27, micro-step by micro-step. -/
theorem setBaudMicroSteps : Obligations.SetBaudMicroSteps := fun _ _ =>
  ⟨exec_setBaud_readLcr (.inl rfl), exec_setBaud_setDlab, exec_setBaud_writeDlh, exec_setBaud_writeDll,
    exec_setBaud_readLcr (.inr rfl), exec_setBaud_clearDlab⟩

/-! ### Micro-steps in a row -/

/-- `m` micro-steps and then `n` are `m + n`. -/
theorem execTimes_add_of_next {m n : Nat} {i : Instr} {s u t : State} (first : execTimes m i s = .next u)
    (rest : execTimes n i u = .next t) : execTimes (m + n) i s = .next t := by
  induction m generalizing s with
  | zero =>
    cases first
    rwa [Nat.zero_add]
  | succ m ih =>
    obtain ⟨v, one, more⟩ := andThen_eq_next.1 first
    rw [Nat.succ_add, execTimes, one]
    exact ih more

theorem execTimes_two {i : Instr} {s u t : State} (first : exec i s = .next u) (second : exec i u = .next t) :
    execTimes 2 i s = .next t := by
  simp only [execTimes, first, second, andThen_next]

/-- After ENTER_DA, that is B0 and B1 (R182). -/
def State.enteredDa (s : State) : State := { s with
  dev := { s.dev with lcr := setDlab s.dev.lcr }
  seq := { s.seq with step := 2, t := s.dev.lcr }
  ghost := { s.ghost with trace := s.ghost.trace ++
    [⟨.read, 3, s.dev.lcr, s.dev.mode⟩, ⟨.write, 3, setDlab s.dev.lcr, s.dev.mode⟩] }
  rdata := s.dev.lcr }

/-- After B2 and B3, with `d` in the latch and in use (R184, R185). -/
def State.loadedDivisor (d : Divisor) (s : State) : State := { s with
  dev := { s.dev with dlh := divHi d, dll := divLo d, baudActive := d }
  seq := { s.seq with step := 4 }
  ghost := { s.ghost with trace := s.ghost.trace ++
    [⟨.write, 1, divHi d, s.dev.mode⟩, ⟨.write, 0, divLo d, s.dev.mode⟩] } }

/-- After EXIT_DA and the response, that is B4 and B5 (R183, R184). -/
def State.exitedDa (s : State) : State := { s with
  dev := { s.dev with lcr := clearDlab s.dev.lcr }
  seq := { s.seq with phase := .idle, step := 5, t := s.dev.lcr }
  arb := { s.arb with resp := mapPut s.seq.req ⟨.done, 0⟩ s.arb.resp }
  ghost := { s.ghost with trace := s.ghost.trace ++
    [⟨.read, 3, s.dev.lcr, s.dev.mode⟩, ⟨.write, 3, clearDlab s.dev.lcr, s.dev.mode⟩] }
  rdata := s.dev.lcr }

section Pairs
variable {s : State} {d : Divisor}

theorem execTimes_setBaud_enterDa (here : s.atStep (.setBaud d) 0) :
    execTimes 2 (.setBaud d) s = .next s.enteredDa := by
  have ⟨busy, instr, _⟩ := here
  rw [execTimes_two (exec_setBaud_readLcr (.inl rfl) here) (exec_setBaud_setDlab ⟨busy, instr, rfl⟩)]
  simp [State.withRead, State.withWrite, State.enteredDa]

/-- Whatever B2 makes of BAUD_ACTIVE, B3 loads it from the whole latch. -/
theorem execTimes_setBaud_loadDivisor (here : s.atStep (.setBaud d) 2) (divisor : s.dev.dlab = true) :
    execTimes 2 (.setBaud d) s = .next (s.loadedDivisor d) := by
  have ⟨busy, instr, _⟩ := here
  rw [execTimes_two (exec_setBaud_writeDlh here divisor) (exec_setBaud_writeDll ⟨busy, instr, rfl⟩ divisor)]
  simp [State.withWrite, State.loadedDivisor, Dev.mode, Dev.dlab]

theorem execTimes_setBaud_exitDa (here : s.atStep (.setBaud d) 4) :
    execTimes 2 (.setBaud d) s = .next s.exitedDa := by
  have ⟨busy, instr, _⟩ := here
  rw [execTimes_two (exec_setBaud_readLcr (.inr rfl) here) (exec_setBaud_clearDlab ⟨busy, instr, rfl⟩)]
  simp [State.withRead, State.withWrite, State.exitedDa]

theorem execTimes_setBaud (here : s.atStep (.setBaud d) 0) :
    execTimes 6 (.setBaud d) s = .next (s.enteredDa.loadedDivisor d).exitedDa := by
  have ⟨busy, instr, _⟩ := here
  have load := execTimes_setBaud_loadDivisor (s := s.enteredDa) ⟨busy, instr, rfl⟩ (setDlab_dlab _)
  have leave := execTimes_setBaud_exitDa (s := s.enteredDa.loadedDivisor d) ⟨busy, instr, rfl⟩
  exact execTimes_add_of_next (execTimes_add_of_next (execTimes_setBaud_enterDa here) load) leave

end Pairs

/-- Settles O28: ENTER_DA, the latch, EXIT_DA. EXIT_DA clears the bit that ENTER_DA set. -/
theorem setBaudCompletes : Obligations.SetBaudCompletes := by
  intro s d here
  have opened : s.enteredDa.dev.mode = .divisorAccess := mode_eq_divisorAccess_iff.mpr (setDlab_dlab _)
  have loaded : (s.enteredDa.loadedDivisor d).dev.mode = .divisorAccess := opened
  have cleared : clearDlab s.enteredDa.dev.lcr = s.dev.lcr &&& 0x7F := clearDlab_setDlab _
  refine ⟨_, execTimes_setBaud here, ?_, rfl, rfl, ?_, rfl, rfl, rfl⟩
  · rw [← cleared]
    rfl
  · simp only [State.exitedDa, loaded]
    simp only [State.loadedDivisor, opened, cleared]
    simp [State.enteredDa, setDlab, lcrDlab]

/-- Settles O29: the two bit operations, bit by bit. -/
theorem enterAndExitKeepOtherLcrBits : Obligations.EnterAndExitKeepOtherLcrBits := by
  intro s d
  constructor
  · intro here
    refine ⟨_, execTimes_setBaud_enterDa here, rfl, setDlab_dlab _, fun k low => ?_, rfl⟩
    interval_cases k <;> simp [State.enteredDa, setDlab, lcrDlab]
  · intro here
    refine ⟨_, execTimes_setBaud_exitDa here, rfl, clearDlab_dlab _, fun k low => ?_, rfl⟩
    interval_cases k <;> simp [State.exitedDa, clearDlab]

end Sys2Proof.Machine

/-! PROOFS. Which register a micro-step accesses and under which mode, and so who configures the device (41_divisor_latch R187,
R189). -/

namespace Sys2Proof.Machine

/-! ### The offset of a micro-step's access -/

/-- The offset that micro-step `k` of the command accesses (R184, R203, R220 to R223); of no meaning past its last micro-step. -/
def accessOff : Cmd → Nat → Offset
  | .configure, 1 => offDlh
  | .configure, 2 => offDll
  | .configure, 5 => offFcr
  | .configure, 6 => offIer
  | .configure, _ => offLcr
  | .setBaud, 2 => offDlh
  | .setBaud, 3 => offDll
  | .setBaud, _ => offLcr
  | .sendByte, 1 | .tryReceive, 1 | .receiveByte, 1 => offRxTx
  | .sendByte, _ | .tryReceive, _ | .receiveByte, _ | .pollStatus, _ => offLsr

/-- `t` is `s` after one access at `off`, as far as device and GHOST go. -/
def Accesses (off : Offset) (s t : State) : Prop :=
  ∃ w u, BusWord.off w = off ∧ portAccess w s = .next u ∧ t.dev = u.dev ∧ t.ghost = u.ghost

section Steps
variable {s t : State} {off : Offset} {k : State → Result}

theorem writeStep_accesses {b : Byte} (busy : s.seq.phase = .busy) (ends : EndsStep s.seq.cmd k)
    (run : writeStep off b k s = .next t) : Accesses off s t := by
  obtain ⟨u, access, rest⟩ := andThen_eq_next.1 run
  have seq := (portAccess_frame access).seq
  have ended := ends u t (by rw [seq]; exact busy) (by rw [seq]) rest
  exact ⟨_, u, busWrite_off off b, access, ended.dev_eq, ended.ghost_eq⟩

theorem readStep_accesses (busy : s.seq.phase = .busy) (ends : EndsStep s.seq.cmd k)
    (run : readStep off k s = .next t) : Accesses off s t := by
  obtain ⟨u, access, rest⟩ := andThen_eq_next.1 run
  have seq := (portAccess_frame access).seq
  have ended := ends (latchT u) t (by simp [seq, busy]) (by simp [seq]) rest
  exact ⟨_, u, busRead_off off, access, ended.dev_eq, ended.ghost_eq⟩

end Steps

/-- A micro-step of the running command accesses the offset that its position fixes. -/
theorem exec_running_accesses {s t : State} (busy : s.seq.phase = .busy) (run : exec s.seq.instr s = .next t) :
    Accesses (accessOff s.seq.cmd s.seq.step) s t := by
  have instr : s.seq.instr = s.seq.cmd.instr s.seq.d s.seq.p s.seq.b := rfl
  rw [instr] at run
  have w : ∀ {off b k}, EndsStep s.seq.cmd k → writeStep off b k s = .next t → Accesses off s t := writeStep_accesses busy
  have r : ∀ {off k}, EndsStep s.seq.cmd k → readStep off k s = .next t → Accesses off s t := readStep_accesses busy
  cases cmd : s.seq.cmd <;> rw [cmd] at run w r <;> obtain ⟨-, run⟩ := whileRunning_eq_next.1 run <;>
    generalize s.seq.step = k at run ⊢
  case configure =>
    split at run
    case h_1 | h_2 | h_3 | h_5 | h_6 => exact w (goto_ends (by decide)) run
    case h_4 => exact r (goto_ends (by decide)) run
    case h_7 => exact w (respond_ends _ (.inr rfl)) run
    case h_8 => cases run
  case setBaud =>
    split at run
    case h_1 | h_5 => exact r (goto_ends (by decide)) run
    case h_2 | h_3 | h_4 => exact w (goto_ends (by decide)) run
    case h_6 => exact w (respond_ends _ (.inr rfl)) run
    case h_7 => cases run
  case sendByte =>
    split at run
    · exact r (ite_ends (fun u => (lineStatus u.seq.t).txEmpty) (goto_ends (by decide)) (pollFailed_ends (by decide))) run
    · exact w (respond_ends _ (.inr rfl)) run
    · cases run
  case tryReceive =>
    split at run
    · exact r (ite_ends (fun u => (lineStatus u.seq.t).dataReady) (goto_ends (by decide)) (respond_ends _ (.inr rfl))) run
    · exact r (respondT_ends _) run
    · cases run
  case receiveByte =>
    split at run
    · exact r (ite_ends (fun u => (lineStatus u.seq.t).dataReady) (goto_ends (by decide)) (pollFailed_ends (by decide))) run
    · exact r (respondT_ends _) run
    · cases run
  case pollStatus =>
    split at run
    · exact r (respondT_ends _) run
    · cases run

/-! ### The mode of an access -/

/-- The steps that access the divisor latch: B2, B3, C1 and C2. -/
def Seq.AtLatch (q : Seq) : Prop :=
  (q.cmd = .setBaud ∧ (q.step = 2 ∨ q.step = 3)) ∨ (q.cmd = .configure ∧ (q.step = 1 ∨ q.step = 2))

/-- The steps that access RX or TX: S1, T1 and V1. -/
def Seq.AtData (q : Seq) : Prop :=
  (q.cmd = .sendByte ∨ q.cmd = .tryReceive ∨ q.cmd = .receiveByte) ∧ q.step = 1

/-- The step that accesses IER: C6. -/
def Seq.AtIer (q : Seq) : Prop := q.cmd = .configure ∧ q.step = 6

/-- The step that accesses FCR: C5. -/
def Seq.AtFcr (q : Seq) : Prop := q.cmd = .configure ∧ q.step = 5

/-- What the position of a running command says of an access at `off`: the steps that make it and, where it selects the operation,
the mode they ask for. -/
inductive Seq.AccessAt (q : Seq) (off : Offset) : Prop where
  | latch (position : q.AtLatch) (at_off : off = 0 ∨ off = 1) (mode : q.expectedDlab = true)
  | data (position : q.AtData) (at_off : off = 0) (mode : q.expectedDlab = false)
  | ier (position : q.AtIer) (at_off : off = 1) (mode : q.expectedDlab = false)
  | fcr (position : q.AtFcr) (at_off : off = 2)
  | other (at_off : off = 3 ∨ off = 5)

theorem accessOff_accessAt {q : Seq} (busy : q.phase = .busy) : q.AccessAt (accessOff q.cmd q.step) := by
  obtain ⟨phase, cmd, req, step, d, p, b, t, polls⟩ := q
  cases busy
  show Seq.AccessAt _ (accessOff cmd step)
  unfold accessOff
  split
  case h_1 => exact .latch (.inr ⟨rfl, .inl rfl⟩) (.inr rfl) rfl
  case h_2 => exact .latch (.inr ⟨rfl, .inr rfl⟩) (.inl rfl) rfl
  case h_3 => exact .fcr ⟨rfl, rfl⟩ rfl
  case h_4 => exact .ier ⟨rfl, rfl⟩ rfl rfl
  case h_6 => exact .latch (.inl ⟨rfl, .inl rfl⟩) (.inr rfl) rfl
  case h_7 => exact .latch (.inl ⟨rfl, .inr rfl⟩) (.inl rfl) rfl
  case h_9 => exact .data ⟨.inl rfl, rfl⟩ rfl rfl
  case h_10 => exact .data ⟨.inr (.inl rfl), rfl⟩ rfl rfl
  case h_11 => exact .data ⟨.inr (.inr rfl), rfl⟩ rfl rfl
  case h_5 | h_8 => exact .other (.inl rfl)
  all_goals exact .other (.inr rfl)

theorem portAccess_records {w : BusWord} {s t : State} (h : portAccess w s = .next t) : Records w s t :=
  everyOperationIsRecorded s t w ((portAccess_eq_busTurn w s).symm.trans h)

/-- The one TRACE entry of an access has its offset and the mode before it. -/
theorem Accesses.entry {off : Offset} {s t : State} {e : TraceEntry} (h : Accesses off s t)
    (appended : t.ghost.trace = s.ghost.trace ++ [e]) : e.off = off ∧ e.mode = s.dev.mode := by
  obtain ⟨w, u, rfl, access, -, ghost⟩ := h
  rw [ghost, portAccess_records access] at appended
  obtain rfl := List.singleton_inj.1 (List.append_cancel_left appended)
  exact ⟨rfl, rfl⟩

section Positions
variable {q : Seq} {off : Offset}

theorem Seq.AccessAt.atLatch (h : q.AccessAt off) (divisor : q.expectedDlab = true) (at_off : off = 0 ∨ off = 1) :
    q.AtLatch := by
  cases h with
  | latch position => exact position
  | data _ _ mode | ier _ _ mode => simp [mode] at divisor
  | fcr _ two => simp [two] at at_off
  | other high => rcases high with high | high <;> simp [high] at at_off

theorem Seq.AccessAt.atData_or_atIer (h : q.AccessAt off) (normal : q.expectedDlab = false) (at_off : off = 0 ∨ off = 1) :
    (q.AtData ∧ off = 0) ∨ (q.AtIer ∧ off = 1) := by
  cases h with
  | latch _ _ mode => simp [mode] at normal
  | data position zero => exact .inl ⟨position, zero⟩
  | ier position one => exact .inr ⟨position, one⟩
  | fcr _ two => simp [two] at at_off
  | other high => rcases high with high | high <;> simp [high] at at_off

theorem Seq.AccessAt.atFcr (h : q.AccessAt off) (at_off : off = 2) : q.AtFcr := by
  cases h with
  | fcr position => exact position
  | latch _ low => rcases low with low | low <;> simp [low] at at_off
  | data _ low | ier _ low => simp [low] at at_off
  | other high => rcases high with high | high <;> simp [high] at at_off

end Positions

/-- Settles O54: the access has the mode its position asks for, and at offsets 0 and 1 that mode leaves these positions. -/
theorem accessesKeepModeDiscipline : Obligations.AccessesKeepModeDiscipline := by
  intro s t e _ h busy run appended off
  obtain ⟨same, mode⟩ := (exec_running_accesses busy run).entry appended
  rw [same] at off
  rw [mode, mode_eq_divisorAccess_iff, mode_eq_normal_iff, h.mode]
  have position := accessOff_accessAt busy
  exact ⟨fun divisor => position.atLatch divisor off,
    fun normal => (position.atData_or_atIer normal off).imp And.left And.left⟩

/-! ### What an access configures -/

/-- Only a write of the latch changes the divisor, only WR_IER the enables, only WR_FCR the FIFO settings (R275). -/
structure ConfigFrame (i : Instr) (d d' : Dev) : Prop where
  divisor : (∀ b, i ≠ .wrDll b ∧ i ≠ .wrDlh b) → d'.dll = d.dll ∧ d'.dlh = d.dlh ∧ d'.baudActive = d.baudActive
  ier : (∀ b, i ≠ .wrIer b) → d'.ier = d.ier
  fifo : (∀ b, i ≠ .wrFcr b) → d'.fifoEn = d.fifoEn ∧ d'.rxTrig = d.rxTrig

theorem ConfigFrame.queues (i : Instr) (d : Dev) (rxq txq : List Byte) (lcr : Byte) :
    ConfigFrame i d { d with rxq := rxq, txq := txq, lcr := lcr } :=
  ⟨fun _ => ⟨rfl, rfl, rfl⟩, fun _ => rfl, fun _ => ⟨rfl, rfl⟩⟩

theorem execRegister_config {i : Instr} {s t : State} (h : execRegister i s = .next t) : ConfigFrame i s.dev t.dev := by
  cases i <;> simp only [execRegister] at h
  case rdRbr =>
    obtain ⟨-, h⟩ := selectedUnder_eq_next.1 h
    split at h <;> (cases h; exact .queues ..)
  case wrThr =>
    obtain ⟨-, h⟩ := selectedUnder_eq_next.1 h
    split at h <;> (cases h; exact .queues ..)
  case wrDll b =>
    cases (selectedUnder_eq_next.1 h).2
    exact ⟨fun other => absurd rfl (other b).1, fun _ => rfl, fun _ => ⟨rfl, rfl⟩⟩
  case wrDlh b =>
    cases (selectedUnder_eq_next.1 h).2
    exact ⟨fun other => absurd rfl (other b).2, fun _ => rfl, fun _ => ⟨rfl, rfl⟩⟩
  case wrIer b =>
    obtain ⟨-, h⟩ := selectedUnder_eq_next.1 h
    split at h
    · cases h
      exact ⟨fun _ => ⟨rfl, rfl, rfl⟩, fun other => absurd rfl (other b), fun _ => ⟨rfl, rfl⟩⟩
    · cases h
  case wrFcr b =>
    unfold execWrFcr at h
    split at h
    · cases h
      exact ⟨fun _ => ⟨rfl, rfl, rfl⟩, fun _ => rfl, fun other => absurd rfl (other b)⟩
    · cases h
  case rdDll | rdIer | rdDlh =>
    cases (selectedUnder_eq_next.1 h).2
    exact .queues ..
  case rdIir | rdLcr | wrLcr | rdMcr | rdLsr | rdMsr =>
    cases h
    exact .queues ..
  all_goals cases h

theorem decodeBus_off {dlab : Bool} {w w' : BusWord} {i : Instr} (selected : decodeBus dlab w = i) (word : encode i = .bus w') :
    BusWord.off w = BusWord.off w' := by
  have canonical := (decodeBus_canonical dlab w).1
  rw [selected, word] at canonical
  cases canonical
  split
  · rfl
  · rw [busRead_off]

theorem decodeBus_dlab {dlab bit : Bool} {w : BusWord} {i : Instr} (selected : decodeBus dlab w = i)
    (bound : i.selectedBy = some bit) : dlab = bit :=
  dlab_of_selected (decodeBus_canonical dlab w).2 (by rw [selected]; exact bound)

section Accesses
variable {off : Offset} {s t : State}

theorem Accesses.of_divisor_changed (h : Accesses off s t)
    (changed : t.dev.dll ≠ s.dev.dll ∨ t.dev.dlh ≠ s.dev.dlh ∨ t.dev.baudActive ≠ s.dev.baudActive) :
    s.dev.dlab = true ∧ (off = 0 ∨ off = 1) := by
  obtain ⟨w, u, rfl, access, dev, -⟩ := h
  rw [dev] at changed
  by_contra other
  obtain ⟨dll, dlh, baud⟩ := (execRegister_config access).divisor fun b =>
    ⟨fun selected => other ⟨decodeBus_dlab selected rfl, .inl (by simpa using decodeBus_off selected rfl)⟩,
      fun selected => other ⟨decodeBus_dlab selected rfl, .inr (by simpa using decodeBus_off selected rfl)⟩⟩
  simp [dll, dlh, baud] at changed

theorem Accesses.of_ier_changed (h : Accesses off s t) (changed : t.dev.ier ≠ s.dev.ier) :
    s.dev.dlab = false ∧ off = 1 := by
  obtain ⟨w, u, rfl, access, dev, -⟩ := h
  rw [dev] at changed
  by_contra other
  exact changed ((execRegister_config access).ier fun b selected =>
    other ⟨decodeBus_dlab selected rfl, by simpa using decodeBus_off selected rfl⟩)

theorem Accesses.of_fifo_changed (h : Accesses off s t)
    (changed : t.dev.fifoEn ≠ s.dev.fifoEn ∨ t.dev.rxTrig ≠ s.dev.rxTrig) : off = 2 := by
  obtain ⟨w, u, rfl, access, dev, -⟩ := h
  rw [dev] at changed
  by_contra other
  obtain ⟨enable, trigger⟩ := (execRegister_config access).fifo fun b selected =>
    other (by simpa using decodeBus_off selected rfl)
  simp [enable, trigger] at changed

end Accesses

/-- Under sole ownership a turn other than reset is an access of the running command or reaches the queues alone (R76). -/
theorem Turn.accesses_or_queues {s t : State} (turn : Turn s t) (sole : soleOwner s.schedule = true)
    (notReset : s.schedule.head? ≠ some .reset) :
    (s.seq.phase = .busy ∧ Accesses (accessOff s.seq.cmd s.seq.step) (beginTurn s) t) ∨
    ∃ rxq txq, t.dev = { s.dev with rxq := rxq, txq := txq } := by
  cases turn with
  | micro _ busy run => exact .inl ⟨busy, exec_running_accesses (s := beginTurn s) busy run⟩
  | port foreign => exact absurd (foreign.symm.trans sole) (by decide)
  | reset isReset => exact absurd isReset notReset
  | quiet | submit | take | grant | rxArrive | rxOverrun | txDrain => exact .inr ⟨_, _, rfl⟩

/-- Settles O58: what changed fixes the access's offset and mode, and these the position. -/
theorem onlyTheirCommandsConfigure : Obligations.OnlyTheirCommandsConfigure := by
  intro s t _ h sole next notReset
  obtain ⟨busy, access⟩ | ⟨rxq, txq, dev⟩ := (step_turn next).accesses_or_queues sole notReset
  · have position := accessOff_accessAt busy
    refine ⟨fun changed => ⟨busy, ?_⟩, fun changed => ⟨busy, ?_⟩, fun changed => ⟨busy, ?_⟩⟩
    · obtain ⟨divisor, off⟩ := access.of_divisor_changed changed
      exact position.atLatch (h.mode.symm.trans divisor) off
    · obtain ⟨normal, off⟩ := access.of_ier_changed changed
      obtain ⟨-, zero⟩ | ⟨atIer, -⟩ := position.atData_or_atIer (h.mode.symm.trans normal) (.inr off)
      · rw [off] at zero
        cases zero
      · exact atIer
    · exact position.atFcr (access.of_fifo_changed changed)
  · simp [dev]

end Sys2Proof.Machine

/-! PROOFS. CONFIGURE, micro-step by micro-step and whole (42_configure R203 to R208). -/

namespace Sys2Proof.Machine

/-! ### The two accesses that SET_BAUD does not make -/

/-- FCR 0xC7 (R201): both pulses are set, so both queues are emptied whether the enable changes or not. -/
theorem writeFcr_fcrConfig (d : Dev) :
    d.writeFcr 0xC7 = { d with fifoEn := true, rxTrig := 0b11, rxq := [], txq := [] } := by
  simp [Dev.writeFcr]

theorem regWrite_fcrConfig_eq (s : State) :
    regWrite offFcr 0xC7 s = .next { s.withWrite 2 0xC7 with
      dev := { s.dev with fifoEn := true, rxTrig := 0b11, rxq := [], txq := [] } } := by
  rw [regWrite_fcr, ← writeFcr_fcrConfig]
  exact execWrFcr_of_legal (by decide) s

/-- The policy byte has no reserved bit, so the write is not refused (R202, R135). -/
theorem regWrite_ierValue_eq {s : State} (normal : s.dev.dlab = false) (p : BitVec 3) :
    regWrite offIer (ierValue p) s = .next { s.withWrite 1 (ierValue p) with dev := { s.dev with ier := ierValue p } } :=
  (regWrite_ier normal _).trans (execWrIer_of_legal normal ((bits7to3_eq_zero_iff _).mp (ierValue_legal p)))

/-! ### CONFIGURE, one micro-step at a time (R203) -/

/-- The microprogram by step number, with the command's operands in place of the latches. -/
def configureStep (p : BitVec 3) (d : Divisor) (k : Nat) (s : State) : Result :=
  match k with
  | 0 => writeStep offLcr (lcrByte true) (goto 1) s
  | 1 => writeStep offDlh (divHi d) (goto 2) s
  | 2 => writeStep offDll (divLo d) (goto 3) s
  | 3 => readLcrStep (goto 4) s
  | 4 => exitDaStep (goto 5) s
  | 5 => writeStep offFcr fcrConfig (goto 6) s
  | 6 => writeStep offIer (ierValue p) (respond .done 0) s
  | _ => .fault .noSuchMicroStep

section MicroSteps
variable {s : State} {p : BitVec 3} {d : Divisor}

theorem exec_configure_atStep {k : Nat} (here : s.atStep (.configure p d) k) :
    exec (.configure p d) s = configureStep p d k s := by
  obtain ⟨busy, instr, rfl⟩ := here
  obtain ⟨-, rfl, rfl⟩ := instr_configure instr
  exact whileRunning_pos busy instr _

/-- C0 opens the latch and sets the frame format, whatever LCR was. -/
theorem exec_configure_openLatch (here : s.atStep (.configure p d) 0) :
    exec (.configure p d) s = .next { s.withWrite 3 0x83 with
      dev := { s.dev with lcr := 0x83 }
      seq := { s.seq with step := 1 } } :=
  (exec_configure_atStep here).trans (writeStep_goto (regWrite_lcr_eq _ s) 1)

theorem exec_configure_writeDlh (here : s.atStep (.configure p d) 1) (divisor : s.dev.dlab = true) :
    exec (.configure p d) s = .next { s.withWrite 1 (divHi d) with
      dev := { s.dev with
        dlh := divHi d
        baudActive := if s.par.dlhWriteApplies then divisorOf (divHi d) s.dev.dll else s.dev.baudActive }
      seq := { s.seq with step := 2 } } :=
  (exec_configure_atStep here).trans (writeStep_goto (regWrite_dlh_eq divisor _) 2)

theorem exec_configure_writeDll (here : s.atStep (.configure p d) 2) (divisor : s.dev.dlab = true) :
    exec (.configure p d) s = .next { s.withWrite 0 (divLo d) with
      dev := { s.dev with dll := divLo d, baudActive := divisorOf s.dev.dlh (divLo d) }
      seq := { s.seq with step := 3 } } :=
  (exec_configure_atStep here).trans (writeStep_goto (regWrite_dll_eq divisor _) 3)

theorem exec_configure_readLcr (here : s.atStep (.configure p d) 3) :
    exec (.configure p d) s = .next { s.withRead 3 s.dev.lcr with seq := { s.seq with step := 4, t := s.dev.lcr } } :=
  (exec_configure_atStep here).trans (readLcr_goto 4 s)

theorem exec_configure_clearDlab (here : s.atStep (.configure p d) 4) :
    exec (.configure p d) s = .next { s.withWrite 3 (clearDlab s.seq.t) with
      dev := { s.dev with lcr := clearDlab s.seq.t }
      seq := { s.seq with step := 5 } } :=
  (exec_configure_atStep here).trans (writeStep_goto (regWrite_lcr_eq _ s) 5)

theorem exec_configure_writeFcr (here : s.atStep (.configure p d) 5) :
    exec (.configure p d) s = .next { s.withWrite 2 0xC7 with
      dev := { s.dev with fifoEn := true, rxTrig := 0b11, rxq := [], txq := [] }
      seq := { s.seq with step := 6 } } :=
  (exec_configure_atStep here).trans (writeStep_goto (regWrite_fcrConfig_eq s) 6)

/-- C6 writes the interrupt policy and responds. -/
theorem exec_configure_writeIer (here : s.atStep (.configure p d) 6) (normal : s.dev.dlab = false) :
    exec (.configure p d) s = .next { s.withWrite 1 (ierValue p) with
      dev := { s.dev with ier := ierValue p }
      seq := { s.seq with phase := .idle }
      arb := { s.arb with resp := mapPut s.seq.req ⟨.done, 0⟩ s.arb.resp } } :=
  (exec_configure_atStep here).trans (writeStep_respond (regWrite_ierValue_eq normal p) .done 0)

end MicroSteps

/-- Settles O30, micro-step by micro-step. -/
theorem configureMicroSteps : Obligations.ConfigureMicroSteps := fun _ _ _ =>
  ⟨exec_configure_openLatch, exec_configure_writeDlh, exec_configure_writeDll, exec_configure_readLcr,
    exec_configure_clearDlab, exec_configure_writeFcr, exec_configure_writeIer⟩

/-! ### The whole microprogram -/

/-- After C0. -/
def State.openedLatch (s : State) : State :=
  { s.withWrite 3 0x83 with dev := { s.dev with lcr := 0x83 }, seq := { s.seq with step := 1 } }

theorem openedLatch_dlab (s : State) : s.openedLatch.dev.dlab = true :=
  show (0x83 : Byte).getLsbD 7 = true by decide

/-- After C3 and C4, which are an EXIT_DA (R183). -/
def State.closedLatch (s : State) : State := { s with
  dev := { s.dev with lcr := clearDlab s.dev.lcr }
  seq := { s.seq with step := 5, t := s.dev.lcr }
  ghost := { s.ghost with trace := s.ghost.trace ++
    [⟨.read, 3, s.dev.lcr, s.dev.mode⟩, ⟨.write, 3, clearDlab s.dev.lcr, s.dev.mode⟩] }
  rdata := s.dev.lcr }

/-- After C5, C6 and the response. -/
def State.setFifoAndIer (p : BitVec 3) (s : State) : State := { s with
  dev := { s.dev with fifoEn := true, rxTrig := 0b11, rxq := [], txq := [], ier := ierValue p }
  seq := { s.seq with phase := .idle, step := 6 }
  arb := { s.arb with resp := mapPut s.seq.req ⟨.done, 0⟩ s.arb.resp }
  ghost := { s.ghost with trace := s.ghost.trace ++
    [⟨.write, 2, 0xC7, s.dev.mode⟩, ⟨.write, 1, ierValue p, s.dev.mode⟩] } }

/-- FIFO on with trigger code 11, the pulses read as 0 (R24, R208). -/
theorem setFifoAndIer_fcrShadow (p : BitVec 3) (s : State) : (s.setFifoAndIer p).dev.fcrShadow = 0xC1 := by
  simp [State.setFifoAndIer, Dev.fcrShadow]

/-- After C0 to C2; C1 and C2 load the latch as SET_BAUD's B2 and B3 do, at other step numbers. -/
def State.openedLoaded (d : Divisor) (s : State) : State :=
  (s.openedLatch.loadedDivisor d).setSeq { s.openedLatch.seq with step := 3 }

/-- After all seven. -/
def State.configured (p : BitVec 3) (d : Divisor) (s : State) : State :=
  (s.openedLoaded d).closedLatch.setFifoAndIer p

section Phases
variable {s : State} {p : BitVec 3} {d : Divisor}

/-- Whatever C1 makes of BAUD_ACTIVE, C2 loads it from the whole latch. -/
theorem execTimes_configure_loadDivisor (here : s.atStep (.configure p d) 1) (divisor : s.dev.dlab = true) :
    execTimes 2 (.configure p d) s = .next ((s.loadedDivisor d).setSeq { s.seq with step := 3 }) := by
  have ⟨busy, instr, _⟩ := here
  rw [execTimes_two (exec_configure_writeDlh here divisor) (exec_configure_writeDll ⟨busy, instr, rfl⟩ divisor)]
  simp [State.withWrite, State.loadedDivisor, State.setSeq, Dev.mode, Dev.dlab]

theorem execTimes_configure_closeLatch (here : s.atStep (.configure p d) 3) :
    execTimes 2 (.configure p d) s = .next s.closedLatch := by
  have ⟨busy, instr, _⟩ := here
  rw [execTimes_two (exec_configure_readLcr here) (exec_configure_clearDlab ⟨busy, instr, rfl⟩)]
  simp [State.withRead, State.withWrite, State.closedLatch]

theorem execTimes_configure_setFifoAndIer (here : s.atStep (.configure p d) 5) (normal : s.dev.dlab = false) :
    execTimes 2 (.configure p d) s = .next (s.setFifoAndIer p) := by
  have ⟨busy, instr, _⟩ := here
  rw [execTimes_two (exec_configure_writeFcr here) (exec_configure_writeIer ⟨busy, instr, rfl⟩ normal)]
  simp [State.withWrite, State.setFifoAndIer, Dev.mode, Dev.dlab]

theorem execTimes_configure (here : s.atStep (.configure p d) 0) :
    execTimes 7 (.configure p d) s = .next (s.configured p d) := by
  have ⟨busy, instr, _⟩ := here
  have opened : execTimes 1 (.configure p d) s = .next s.openedLatch := by
    rw [execTimes, exec_configure_openLatch here]
    rfl
  have load := execTimes_configure_loadDivisor (s := s.openedLatch) ⟨busy, instr, rfl⟩ (openedLatch_dlab s)
  have close := execTimes_configure_closeLatch (s := s.openedLoaded d) ⟨busy, instr, rfl⟩
  have last := execTimes_configure_setFifoAndIer (s := (s.openedLoaded d).closedLatch) ⟨busy, instr, rfl⟩ (clearDlab_dlab _)
  exact execTimes_add_of_next (execTimes_add_of_next (execTimes_add_of_next opened load) close) last

end Phases

/-- No field is left of the device before (R205, R206). -/
theorem configured_dev (p : BitVec 3) (d : Divisor) (s : State) : (s.configured p d).dev =
    { rxq := [], txq := [], ier := ierValue p, fifoEn := true, rxTrig := 0b11, lcr := 0x03
      dll := divLo d, dlh := divHi d, baudActive := d } := by
  simp [State.configured, State.setFifoAndIer, State.closedLatch, State.openedLoaded, State.loadedDivisor,
    State.openedLatch, clearDlab]

theorem openedLoaded_trace (d : Divisor) (s : State) : (s.openedLoaded d).ghost.trace = s.ghost.trace ++
    [⟨.write, 3, 0x83, s.dev.mode⟩, ⟨.write, 1, divHi d, .divisorAccess⟩, ⟨.write, 0, divLo d, .divisorAccess⟩] := by
  have opened : s.openedLatch.dev.mode = .divisorAccess := mode_eq_divisorAccess_iff.mpr (openedLatch_dlab s)
  simp only [State.openedLoaded, State.loadedDivisor, opened]
  simp [State.openedLatch, State.withWrite]

/-- The entries of C3 to C6: LCR stands at 0x83 until C4 and at 0x03 after. -/
theorem configured_trace (p : BitVec 3) (d : Divisor) (s : State) :
    (s.configured p d).ghost.trace = (s.openedLoaded d).ghost.trace ++
      [⟨.read, 3, 0x83, .divisorAccess⟩, ⟨.write, 3, 0x03, .divisorAccess⟩, ⟨.write, 2, 0xC7, .normal⟩,
       ⟨.write, 1, ierValue p, .normal⟩] := by
  have loaded : (s.openedLoaded d).dev.mode = .divisorAccess := mode_eq_divisorAccess_iff.mpr (openedLatch_dlab s)
  have closed : (s.openedLoaded d).closedLatch.dev.mode = .normal := mode_eq_normal_iff.mpr (clearDlab_dlab _)
  have lcr : (s.openedLoaded d).dev.lcr = 0x83 := rfl
  simp only [State.configured, State.setFifoAndIer, closed]
  simp [State.closedLatch, loaded, lcr, clearDlab]

/-- Settles O31: C0 overwrites LCR, so neither LCR nor the mode depends on the state before from there on. -/
theorem configureCompletes : Obligations.ConfigureCompletes := by
  intro s p d here
  have closed : (s.configured p d).dev.mode = .normal := mode_eq_normal_iff.mpr (clearDlab_dlab _)
  refine ⟨_, execTimes_configure here, configured_dev p d s, closed, setFifoAndIer_fcrShadow p _, rfl, rfl, rfl, ?_,
    rfl, rfl, rfl⟩
  have trace := configured_trace p d s
  rw [openedLoaded_trace, List.append_assoc] at trace
  exact congrArg (Ghost.mk · s.ghost.txlog) trace

end Sys2Proof.Machine

/-! PROOFS. The data-path commands: the poll of LSR, the one data access, and polling in vain (43_tx_rx_status R220 to R223, R229,
R231). -/

namespace Sys2Proof.Machine

/-! ### A failed poll (R229) -/

theorem pollLimitReached_eq_true_iff {p : Params} {n : Nat} :
    pollLimitReached p n = true ↔ ∃ l, p.pollLimit = some l ∧ l ≤ n := by
  cases limit : p.pollLimit with
  | none => simp [pollLimitReached_none limit]
  | some l => simp [pollLimitReached_some limit]

theorem pollFailed_of_reached {k : Nat} {s : State} (reached : ∃ l, s.par.pollLimit = some l ∧ l ≤ s.seq.polls + 1) :
    pollFailed k s = .next { s with
      seq := { s.seq with polls := s.seq.polls + 1, phase := .idle }
      arb := { s.arb with resp := mapPut s.seq.req ⟨.timeout, 0⟩ s.arb.resp } } := by
  obtain ⟨-, timeout⟩ | ⟨below, -⟩ := pollFailed_cases k s
  · exact timeout
  · rw [pollLimitReached_eq_true_iff.mpr reached] at below
    cases below

theorem pollFailed_of_below {k : Nat} {s : State} (below : ∀ l, s.par.pollLimit = some l → s.seq.polls + 1 < l) :
    pollFailed k s = .next { s with seq := { s.seq with polls := s.seq.polls + 1, step := k } } := by
  obtain ⟨reached, -⟩ | ⟨-, again⟩ := pollFailed_cases k s
  · obtain ⟨l, limit, le⟩ := pollLimitReached_eq_true_iff.mp reached
    exact absurd (below l limit) (Nat.not_lt.mpr le)
  · exact again

/-- Settles O36, by whether the limit is reached. -/
theorem failedPollCountsOrTimesOut : Obligations.FailedPollCountsOrTimesOut :=
  fun _ _ => ⟨pollFailed_of_reached, pollFailed_of_below⟩

/-! ### The poll -/

/-- The byte a read of LSR returns in `s` (R144). -/
def State.lsrByte (s : State) : Byte := s.dev.lsr (Config.lsrReserved s.draws)

theorem lsrByte_bits (s : State) :
    s.lsrByte.getLsbD 0 = !s.dev.rxq.isEmpty ∧ s.lsrByte.getLsbD 5 = s.dev.txq.isEmpty :=
  (LineStatus.mk.injEq ..).mp (lineStatus_lsr s.dev (Config.lsrReserved s.draws))

theorem lsrByte_dataReady (s : State) : s.lsrByte.getLsbD 0 = !s.dev.rxq.isEmpty := (lsrByte_bits s).1

theorem lsrByte_of_queued {s : State} (queued : s.dev.rxq ≠ []) : s.lsrByte.getLsbD 0 = true := by
  rw [lsrByte_dataReady]
  simpa using queued

theorem lsrByte_txEmpty (s : State) : s.lsrByte.getLsbD 5 = s.dev.txq.isEmpty := (lsrByte_bits s).2

/-- After SEQ.t <- RegRead(5), the first half of S0, T0, V0 and P0. -/
def State.polled (s : State) : State :=
  { s.withRead 5 s.lsrByte with draws := s.draws + 1, seq := { s.seq with t := s.lsrByte } }

theorem readStep_lsr (k : State → Result) (s : State) : readStep offLsr k s = k s.polled := rfl

/-! ### The data access -/

theorem regWrite_tx_of_empty {s : State} (normal : s.dev.dlab = false) (empty : s.dev.txq = []) (room : 0 < s.dev.cap s.par)
    (b : Byte) : regWrite offRxTx b s = .next { s.withWrite 0 b with dev := { s.dev with txq := [b] } } := by
  have append := execWrThr_of_room normal (by rw [empty]; exact room) b
  rw [empty] at append
  exact (regWrite_tx normal b).trans append

/-- T1 and V1 take the oldest byte and answer it. -/
theorem readRx_respondT {s : State} (normal : s.dev.dlab = false) {x : Byte} {q : List Byte} (queued : s.dev.rxq = x :: q) :
    readStep offRxTx respondT s = .next { s.withRead 0 x with
      dev := { s.dev with rxq := q }
      seq := { s.seq with phase := .idle, t := x }
      arb := { s.arb with resp := mapPut s.seq.req ⟨.data, x⟩ s.arb.resp } } := by
  have take : regRead offRxTx s = .next { s.withRead 0 x with dev := { s.dev with rxq := q } } :=
    (regRead_rx normal).trans (execRdRbr_of_cons normal queued)
  rw [readStep, take]
  rfl

/-! ### The commands, one micro-step at a time (R220 to R223) -/

section MicroSteps
variable {s : State} {b : Byte}

/-- S0. -/
theorem exec_sendByte_poll (here : s.atStep (.sendByte b) 0) : exec (.sendByte b) s =
    if s.lsrByte.getLsbD 5 then goto 1 s.polled else pollFailed 0 s.polled := by
  obtain ⟨busy, instr, step⟩ := here
  rw [exec, execSendByte, whileRunning_pos busy instr, step]
  exact readStep_lsr _ s

/-- S1. -/
theorem exec_sendByte_handOver (here : s.atStep (.sendByte b) 1) (normal : s.dev.dlab = false) (empty : s.dev.txq = [])
    (room : 0 < s.dev.cap s.par) :
    exec (.sendByte b) s = .next { s.withWrite 0 b with
      dev := { s.dev with txq := [b] }
      seq := { s.seq with phase := .idle }
      arb := { s.arb with resp := mapPut s.seq.req ⟨.done, 0⟩ s.arb.resp } } := by
  obtain ⟨busy, instr, step⟩ := here
  obtain ⟨-, rfl⟩ := instr_sendByte instr
  rw [exec, execSendByte, whileRunning_pos busy instr, step]
  exact writeStep_respond (regWrite_tx_of_empty normal empty room _) .done 0

/-- T0. -/
theorem exec_tryReceive_poll (here : s.atStep .tryReceive 0) : exec .tryReceive s =
    if s.lsrByte.getLsbD 0 then goto 1 s.polled else respond .noData 0 s.polled := by
  obtain ⟨busy, instr, step⟩ := here
  rw [exec, execTryReceive, whileRunning_pos busy instr, step]
  exact readStep_lsr _ s

/-- V0. -/
theorem exec_receiveByte_poll (here : s.atStep .receiveByte 0) : exec .receiveByte s =
    if s.lsrByte.getLsbD 0 then goto 1 s.polled else pollFailed 0 s.polled := by
  obtain ⟨busy, instr, step⟩ := here
  rw [exec, execReceiveByte, whileRunning_pos busy instr, step]
  exact readStep_lsr _ s

/-- T1 and V1. -/
theorem exec_receive_takeByte {i : Instr} (receives : i = .tryReceive ∨ i = .receiveByte) (here : s.atStep i 1)
    (normal : s.dev.dlab = false) {x : Byte} {q : List Byte} (queued : s.dev.rxq = x :: q) :
    exec i s = .next { s.withRead 0 x with
      dev := { s.dev with rxq := q }
      seq := { s.seq with phase := .idle, t := x }
      arb := { s.arb with resp := mapPut s.seq.req ⟨.data, x⟩ s.arb.resp } } := by
  obtain ⟨busy, instr, step⟩ := here
  rw [← readRx_respondT normal queued]
  rcases receives with rfl | rfl
  · simp only [exec, execTryReceive, whileRunning_pos busy instr, step]
  · simp only [exec, execReceiveByte, whileRunning_pos busy instr, step]

/-- P0. -/
theorem exec_pollStatus_poll (here : s.atStep .pollStatus 0) : exec .pollStatus s = respondT s.polled := by
  obtain ⟨busy, instr, step⟩ := here
  rw [exec, execPollStatus, whileRunning_pos busy instr, step]
  exact readStep_lsr _ s

/-- T0 and V0 with a byte queued. -/
theorem exec_receive_poll_of_queued {i : Instr} (receives : i = .tryReceive ∨ i = .receiveByte) (here : s.atStep i 0)
    (queued : s.dev.rxq ≠ []) : exec i s = goto 1 s.polled := by
  have ready := lsrByte_of_queued queued
  rcases receives with rfl | rfl
  · rw [exec_tryReceive_poll here, if_pos ready]
  · rw [exec_receiveByte_poll here, if_pos ready]

/-- T0 and T1, or V0 and V1, with a byte queued (R221, R222). -/
theorem execTimes_receive {i : Instr} (receives : i = .tryReceive ∨ i = .receiveByte) {x : Byte} {q : List Byte}
    (here : s.atStep i 0) (normal : s.dev.dlab = false) (queued : s.dev.rxq = x :: q) :
    ∃ (t : State) (v : Byte), execTimes 2 i s = .next t ∧ v.getLsbD 0 = true ∧
      t.dev = { s.dev with rxq := q } ∧ t.seq.phase = .idle ∧
      t.arb = { s.arb with resp := mapPut s.seq.req ⟨.data, x⟩ s.arb.resp } ∧
      t.ghost = { s.ghost with trace := s.ghost.trace ++ [⟨.read, 5, v, .normal⟩, ⟨.read, 0, x, .normal⟩] } ∧
      t.par = s.par ∧ t.schedule = s.schedule := by
  have ⟨busy, instr, _⟩ := here
  have nonempty : s.dev.rxq ≠ [] := by simp [queued]
  have poll := exec_receive_poll_of_queued receives here nonempty
  have take := exec_receive_takeByte (s := s.polled.setSeq { s.polled.seq with step := 1 }) receives ⟨busy, instr, rfl⟩
    normal queued
  refine ⟨_, s.lsrByte, execTimes_two poll take, lsrByte_of_queued nonempty, rfl, rfl, rfl, ?_, rfl, rfl⟩
  simp [State.polled, State.withRead, mode_eq_normal_iff.mpr normal]

end MicroSteps

/-- Settles O32: the byte polled is the one the read of LSR composes, and S1 finds TXQ as S0 found it. -/
theorem sendByteCompletes : Obligations.SendByteCompletes := by
  refine fun s b => ⟨fun here => ⟨s.lsrByte, lsrByte_txEmpty s, exec_sendByte_poll here⟩, exec_sendByte_handOver,
    fun here normal empty room => ?_⟩
  have ⟨busy, instr, _⟩ := here
  have shown : s.lsrByte.getLsbD 5 = true := by rw [lsrByte_txEmpty, empty]; rfl
  have poll := exec_sendByte_poll here
  rw [if_pos shown] at poll
  have handOver := exec_sendByte_handOver (s := s.polled.setSeq { s.polled.seq with step := 1 }) ⟨busy, instr, rfl⟩
    normal empty room
  refine ⟨_, s.lsrByte, execTimes_two poll handOver, shown, rfl, rfl, rfl, ?_, rfl, rfl⟩
  simp [State.polled, State.withRead, State.withWrite, mode_eq_normal_iff.mpr normal]

/-- Settles O33: the poll's bit 0 says whether RXQ has a byte, and T1 takes it. -/
theorem tryReceiveCompletes : Obligations.TryReceiveCompletes := by
  refine fun s => ⟨fun here empty => ?_, fun here queued => ?_,
    fun _ _ here normal => exec_receive_takeByte (.inl rfl) here normal, fun _ _ => execTimes_receive (.inl rfl)⟩
  · have unset : s.lsrByte.getLsbD 0 = false := by rw [lsrByte_dataReady, empty]; rfl
    refine ⟨s.lsrByte, unset, ?_⟩
    rw [exec_tryReceive_poll here, if_neg (ne_true_of_eq_false unset)]
    rfl
  · exact ⟨s.lsrByte, lsrByte_of_queued queued, exec_receive_poll_of_queued (.inl rfl) here queued⟩

/-- Settles O34: the poll's bit 0 asks for one byte in RXQ, not for the trigger level. -/
theorem receiveByteCompletes : Obligations.ReceiveByteCompletes := fun s =>
  ⟨fun here => ⟨s.lsrByte, lsrByte_dataReady s, exec_receiveByte_poll here⟩,
    fun _ _ here normal => exec_receive_takeByte (.inr rfl) here normal, fun _ _ => execTimes_receive (.inr rfl)⟩

/-- Settles O35: P0 is the poll and its answer. -/
theorem pollStatusCompletes : Obligations.PollStatusCompletes := fun s here =>
  ⟨s.lsrByte, lineStatus_lsr s.dev (Config.lsrReserved s.draws), exec_pollStatus_poll here⟩

/-! ### Polling in vain (R229, R231) -/

/-- The bit of LSR that a polling command tests (R220, R222). -/
def testedBit (i : Instr) : Nat := if i = .receiveByte then 0 else 5

theorem lsrByte_testedBit_of_vain {i : Instr} {s : State} (vain : pollsInVain i s.dev) :
    s.lsrByte.getLsbD (testedBit i) = false := by
  obtain ⟨b, rfl, queued⟩ | ⟨rfl, empty⟩ := vain
  · rw [testedBit, if_neg (by simp), lsrByte_txEmpty]
    simpa using queued
  · rw [testedBit, if_pos rfl, lsrByte_dataReady, empty]
    rfl

theorem exec_of_vain {i : Instr} {s : State} (here : s.atStep i 0) (vain : pollsInVain i s.dev) :
    exec i s = pollFailed 0 s.polled := by
  have unset := lsrByte_testedBit_of_vain vain
  obtain ⟨b, rfl, -⟩ | ⟨rfl, -⟩ := vain
  · exact (exec_sendByte_poll here).trans (if_neg (ne_true_of_eq_false unset))
  · exact (exec_receiveByte_poll here).trans (if_neg (ne_true_of_eq_false unset))

/-- `t` is `s` after the vain polls that returned `vs`: the command `i` is at its poll again, and only the count, TRACE and the
model's own fields have changed. -/
structure PolledInVain (i : Instr) (vs : List Byte) (s t : State) : Prop where
  here  : t.atStep i 0
  req   : t.seq.req = s.seq.req
  polls : t.seq.polls = s.seq.polls + vs.length
  par   : t.par = s.par
  dev   : t.dev = s.dev
  arb   : t.arb = s.arb
  trace : t.ghost.trace = s.ghost.trace ++ vs.map (fun v => ⟨.read, 5, v, s.dev.mode⟩)
  unset : ∀ v ∈ vs, v.getLsbD (testedBit i) = false

theorem PolledInVain.refl {i : Instr} {s : State} (here : s.atStep i 0) : PolledInVain i [] s s :=
  ⟨here, rfl, rfl, rfl, rfl, rfl, by simp, by simp⟩

theorem PolledInVain.exec_eq {i : Instr} {vs : List Byte} {s t : State} (h : PolledInVain i vs s t)
    (vain : pollsInVain i s.dev) : exec i t = pollFailed 0 t.polled :=
  exec_of_vain h.here (by rw [h.dev]; exact vain)

/-- One more vain poll adds its byte; what it does to the count and the response is poll_failed's part. -/
theorem PolledInVain.append {i : Instr} {vs : List Byte} {s t : State} (h : PolledInVain i vs s t)
    (vain : pollsInVain i s.dev) :
    t.polled.ghost.trace = s.ghost.trace ++ (vs ++ [t.lsrByte]).map (fun v => ⟨.read, 5, v, s.dev.mode⟩) ∧
    ∀ v ∈ vs ++ [t.lsrByte], v.getLsbD (testedBit i) = false := by
  constructor
  · simp [State.polled, State.withRead, h.trace, h.dev]
  · intro v mem
    obtain old | new := List.mem_append.mp mem
    · exact h.unset v old
    · rw [List.mem_singleton.mp new]
      exact lsrByte_testedBit_of_vain (by rw [h.dev]; exact vain)

theorem execTimes_succ_of_next {n : Nat} {i : Instr} {s u t : State} (run : execTimes n i s = .next u)
    (last : exec i u = .next t) : execTimes (n + 1) i s = .next t := by
  have once : execTimes 1 i u = .next t := by rw [execTimes, last]; rfl
  exact execTimes_add_of_next run once

/-- As long as the polls stay below POLL_LIMIT, a vain polling command only polls. -/
theorem execTimes_of_vain {i : Instr} {s : State} (here : s.atStep i 0) (vain : pollsInVain i s.dev) (n : Nat)
    (below : ∀ l, s.par.pollLimit = some l → s.seq.polls + n < l) :
    ∃ t vs, execTimes n i s = .next t ∧ vs.length = n ∧ PolledInVain i vs s t := by
  induction n with
  | zero => exact ⟨s, [], rfl, rfl, .refl here⟩
  | succ n ih =>
    obtain ⟨t, vs, run, rfl, h⟩ := ih fun l limit => Nat.lt_of_succ_lt (below l limit)
    obtain ⟨trace, unset⟩ := h.append vain
    have ⟨busy, instr, _⟩ := h.here
    have poll : exec i t = .next { t.polled with seq := { t.polled.seq with polls := t.seq.polls + 1, step := 0 } } := by
      rw [h.exec_eq vain]
      refine pollFailed_of_below fun l limit => ?_
      have := below l (by rw [← h.par]; exact limit)
      show t.seq.polls + 1 < l
      rw [h.polls]
      omega
    refine ⟨_, vs ++ [t.lsrByte], execTimes_succ_of_next run poll, by simp, ⟨busy, instr, rfl⟩, h.req, ?_, h.par, h.dev,
      h.arb, trace, unset⟩
    simp [h.polls, Nat.add_assoc]

/-- Settles O37: n - 1 vain polls stay below the limit and the next one reaches it. -/
theorem boundedPollingTimesOut : Obligations.BoundedPollingTimesOut := by
  intro s i n here vain fresh limit positive
  have below : ∀ m < n, ∀ l, s.par.pollLimit = some l → s.seq.polls + m < l := by
    intro m lt l limit'
    obtain rfl : n = l := Option.some.inj (limit.symm.trans limit')
    rwa [fresh, Nat.zero_add]
  refine ⟨fun m lt => ?_, ?_⟩
  · obtain ⟨t, vs, run, rfl, h⟩ := execTimes_of_vain here vain m (below m lt)
    exact ⟨t, run, h.here, by rw [h.polls, fresh, Nat.zero_add], h.dev, h.arb⟩
  · obtain ⟨m, rfl⟩ := Nat.exists_eq_succ_of_ne_zero (Nat.ne_of_gt positive)
    obtain ⟨t, vs, run, rfl, h⟩ := execTimes_of_vain here vain m (below m (Nat.lt_succ_self m))
    obtain ⟨trace, unset⟩ := h.append vain
    have timeout := pollFailed_of_reached (k := 0) (s := t.polled)
      ⟨vs.length + 1, h.par ▸ limit, by
        show vs.length + 1 ≤ t.seq.polls + 1
        rw [h.polls, fresh, Nat.zero_add]⟩
    refine ⟨_, vs ++ [t.lsrByte], execTimes_succ_of_next run ((h.exec_eq vain).trans timeout), by simp, unset, trace, h.dev, rfl, ?_⟩
    rw [← h.arb, ← h.req]
    rfl

/-- Settles O38: no limit is ever reached. -/
theorem unboundedPollingNeverEnds : Obligations.UnboundedPollingNeverEnds := by
  intro s i n here vain noLimit
  obtain ⟨t, vs, run, rfl, h⟩ := execTimes_of_vain here vain n fun l limit => by simp [noLimit] at limit
  exact ⟨t, run, h.here, h.polls, h.dev, h.arb, by simp [h.trace]⟩

end Sys2Proof.Machine

/-! PROOFS. The arbiter: submit, grant and take, and how a running command ends (43_tx_rx_status R232, R234, R235). -/

namespace Sys2Proof.Machine

/-! ### Submit (R232) -/

theorem submit_of_maySubmit {s : State} {i : Nat} {w : CmdWord} {c : Cmd} (word : cmdOf w = .ok c)
    (may : s.maySubmit i = true) :
    submit i w s = .next (s.setArb { s.arb with pending := mapPut i w s.arb.pending }) := by
  simp only [submit, word, if_pos may]

theorem submit_of_not_maySubmit {s : State} {i : Nat} {w : CmdWord} {c : Cmd} (word : cmdOf w = .ok c)
    (mayNot : ¬s.maySubmit i = true) : submit i w s = .fault .submitNotEnabled := by
  simp only [submit, word, if_neg mayNot]

/-- Settles O40: the statement's condition is `maySubmit`, which the turn's beginning does not change. -/
theorem submitMakesPending : Obligations.SubmitMakesPending := by
  intro s i w l schedule wellFormed
  obtain ⟨c, word⟩ := wellFormed_iff_cmdOf.mp wellFormed
  have free : (beginTurn s).maySubmit i = true ↔ i < s.par.nReq ∧ mapGet i s.arb.pending = none ∧
      mapGet i s.arb.resp = none ∧ ¬(s.seq.phase = .busy ∧ s.seq.req = i) := by
    rw [maySubmit_eq_true, isRunningFor_eq_false, not_and]
    rfl
  rw [← free, step_cons schedule]
  refine ⟨fun may => ⟨mapPut i w s.arb.pending, ?_, mapGet_mapPut_self _ _ _, fun j other => mapGet_mapPut_other other _ _⟩,
    submit_of_not_maySubmit word⟩
  have submitted := submit_of_maySubmit word may
  rw [beginTurn_of_schedule_cons schedule] at submitted ⊢
  exact submitted

/-! ### Take (R235) -/

theorem take_of_some {s : State} {i : Nat} {r : Response} (answered : mapGet i s.arb.resp = some r) :
    take i s = .next (s.setArb { s.arb with resp := mapDel i s.arb.resp }) := by
  simp only [take, answered]

theorem take_of_none {s : State} {i : Nat} (absent : mapGet i s.arb.resp = none) : take i s = .fault .takeNotEnabled := by
  simp only [take, absent]

/-- Settles O42: a canonical map has one entry per requester, so removing it leaves none. -/
theorem takeRemovesOwnResponse : Obligations.TakeRemovesOwnResponse := by
  intro s i l schedule wf
  rw [step_cons schedule, beginTurn_of_schedule_cons schedule]
  refine ⟨fun present => ⟨mapDel i s.arb.resp, ?_, mapGet_mapDel_self i wf, fun j other => mapGet_mapDel_other other _⟩,
    fun absent => take_of_none absent⟩
  obtain ⟨r, answered⟩ := Option.ne_none_iff_exists'.mp present
  exact take_of_some answered

/-! ### Grant (R234) -/

theorem grant_of_pending {s : State} {i : Nat} {w : CmdWord} {c : Cmd} (idle : s.seq.phase = .idle)
    (pending : mapGet i s.arb.pending = some w) (word : cmdOf w = .ok c) :
    grant i s = .next ((s.setArb { s.arb with pending := mapDel i s.arb.pending }).setSeq (s.seq.load i c w)) := by
  simp only [grant, idle, pending, word]

theorem grant_of_busy {s : State} (busy : s.seq.phase = .busy) (i : Nat) : grant i s = .fault .grantNotEnabled := by
  simp only [grant, busy]

theorem decodeCmd_of_cmdOf {w : CmdWord} {c : Cmd} (word : cmdOf w = .ok c) :
    decodeCmd w = .ok (c.instr (CmdWord.arg w) (CmdWord.ierp w) (CmdWord.byte w)) :=
  decodeCmd_eq_ok_iff.mpr ⟨c, word, rfl⟩

theorem ownTurn_of_pending {s : State} (idle : s.seq.phase = .idle) {e : Nat × CmdWord} {m : List (Nat × CmdWord)}
    (pending : s.arb.pending = e :: m) : ownTurn s = grant (pickPending e m s.draws) s := by
  simp only [ownTurn, idle, pending]

/-- The arbiter's own choice has a command pending (R234). -/
theorem pickPending_pending {s : State} (h : Inv s) {e : Nat × CmdWord} {m : List (Nat × CmdWord)}
    (pending : s.arb.pending = e :: m) (n : Nat) :
    ∃ w c, mapGet (pickPending e m n) s.arb.pending = some w ∧ cmdOf w = .ok c := by
  obtain ⟨wf, commands⟩ := h.pending
  obtain ⟨w, picked⟩ := pickPending_mem e m n
  rw [← pending] at picked
  obtain ⟨c, word⟩ := wellFormed_iff_cmdOf.mp (commands _ picked).2
  exact ⟨w, c, mapGet_of_mem wf picked, word⟩

/-- Settles O41: the scheduled grant and the arbiter's own are the same grant. -/
theorem grantLoadsCommand : Obligations.GrantLoadsCommand := by
  refine ⟨fun s i l schedule => ⟨fun w c idle wf pending word => ?_, fun busy => ?_⟩, fun s inv idle schedule nonempty => ?_⟩
  · refine ⟨mapDel i s.arb.pending, ?_, mapGet_mapDel_self i wf, fun j other => mapGet_mapDel_other other _,
      decodeCmd_of_cmdOf word⟩
    rw [step_cons schedule, beginTurn_of_schedule_cons schedule]
    exact grant_of_pending idle pending word
  · rw [step_cons schedule]
    exact grant_of_busy (s := beginTurn s) busy i
  · obtain ⟨e, m, queue⟩ := List.exists_cons_of_ne_nil nonempty
    obtain ⟨w, c, pending, word⟩ := pickPending_pending inv queue (beginTurn s).draws
    refine ⟨_, w, c, mapDel _ s.arb.pending, pending, ?_, mapGet_mapDel_self _ inv.pending.1,
      fun j other => mapGet_mapDel_other other _, decodeCmd_of_cmdOf word⟩
    rw [step_nil schedule, ownTurn_of_pending (s := beginTurn s) idle queue,
      grant_of_pending (s := beginTurn s) idle pending word]
    simp [beginTurn, schedule, State.setSchedule, State.advance, State.setArb, State.setSeq, Seq.load]

/-! ### The end of a command (R235, R302) -/

/-- A micro-step that leaves the sequencer idle has responded to the running command's requester. -/
theorem MicroStep.arb_of_idle {s t : State} (h : MicroStep s t) (idle : t.seq.phase = .idle) :
    ∃ r : Response, r.wellFormed = true ∧ t.arb = { s.arb with resp := mapPut s.seq.req r s.arb.resp } := by
  obtain ⟨w, u, access, q, -, -, -, -, -, ⟨busy, -, rfl⟩ | ⟨-, r, legal, rfl⟩⟩ := h
  · exact absurd (busy.symm.trans idle) (by decide)
  · exact ⟨r, legal, by rw [← (portAccess_frame access).arb]; rfl⟩

/-- Every turn but a micro-step and reset leaves a running command running. -/
theorem Turn.microStep_of_ends {s t : State} (turn : Turn s t) (busy : s.seq.phase = .busy) (idle : t.seq.phase = .idle) :
    s.schedule.head? = some .reset ∨ MicroStep (beginTurn s) t := by
  have stillBusy (same : t.seq = s.seq) : False := by
    rw [same, busy] at idle
    cases idle
  cases turn with
  | micro _ _ run => exact .inr (exec_running_micro (s := beginTurn s) busy run)
  | reset isReset => exact .inl isReset
  | port _ run => exact (stillBusy (portAccess_frame (s := beginTurn s) ((portAccess_eq_busTurn _ _).trans run)).seq).elim
  | grant => cases idle
  | quiet | submit | take | rxArrive | rxOverrun | txDrain => exact (stillBusy rfl).elim

/-- Settles O44. -/
theorem commandEndsWithItsResponse : Obligations.CommandEndsWithItsResponse := by
  intro s t next busy idle
  obtain isReset | micro := (step_turn next).microStep_of_ends busy idle
  · exact .inl isReset
  · obtain ⟨r, legal, arb⟩ := micro.arb_of_idle idle
    refine .inr ⟨r, ?_, response_wellFormed_iff.mp legal, fun j other => ?_, ?_⟩ <;> rw [arb]
    · exact mapGet_mapPut_self _ _ _
    · exact mapGet_mapPut_other other _ _
    · rfl

end Sys2Proof.Machine

/-! PROOFS. Under the discipline a running command completes each micro-step (60_exceptions R271, R272), and only SEND_BYTE and the
clearing pulse of CONFIGURE reach TXQ (43_tx_rx_status R225, 42_configure R203). -/

namespace Sys2Proof.Machine

/-! ### Every micro-step completes -/

theorem pollFailed_completes (k : Nat) (s : State) : ∃ t, pollFailed k s = .next t := by
  obtain ⟨-, timeout⟩ | ⟨-, again⟩ := pollFailed_cases k s
  · exact ⟨_, timeout⟩
  · exact ⟨_, again⟩

/-- A branch of a poll goes on whichever way it goes. -/
theorem ite_completes {p : Bool} {o o' : Result} (h : ∃ t, o = .next t) (h' : ∃ t, o' = .next t) :
    ∃ t, (if p = true then o else o') = .next t := by
  cases p
  · exact h'
  · exact h

section Commands
variable {s : State}

theorem exec_setBaud_completes {d : Divisor} {k : Nat} (here : s.atStep (.setBaud d) k) (inRange : k ≤ 5)
    (mode : s.dev.dlab = (2 ≤ k && k ≤ 5)) : ∃ t, exec (.setBaud d) s = .next t := by
  interval_cases k
  · exact ⟨_, exec_setBaud_readLcr (.inl rfl) here⟩
  · exact ⟨_, exec_setBaud_setDlab here⟩
  · exact ⟨_, exec_setBaud_writeDlh here mode⟩
  · exact ⟨_, exec_setBaud_writeDll here mode⟩
  · exact ⟨_, exec_setBaud_readLcr (.inr rfl) here⟩
  · exact ⟨_, exec_setBaud_clearDlab here⟩

theorem exec_configure_completes {p : BitVec 3} {d : Divisor} {k : Nat} (here : s.atStep (.configure p d) k)
    (inRange : k ≤ 6) (mode : s.dev.dlab = (1 ≤ k && k ≤ 4)) : ∃ t, exec (.configure p d) s = .next t := by
  interval_cases k
  · exact ⟨_, exec_configure_openLatch here⟩
  · exact ⟨_, exec_configure_writeDlh here mode⟩
  · exact ⟨_, exec_configure_writeDll here mode⟩
  · exact ⟨_, exec_configure_readLcr here⟩
  · exact ⟨_, exec_configure_clearDlab here⟩
  · exact ⟨_, exec_configure_writeFcr here⟩
  · exact ⟨_, exec_configure_writeIer here mode⟩

theorem exec_sendByte_completes {b : Byte} {k : Nat} (here : s.atStep (.sendByte b) k) (inRange : k ≤ 1)
    (normal : s.dev.dlab = false) (room : 0 < s.dev.cap s.par) (gate : k = 1 → s.dev.txq = []) :
    ∃ t, exec (.sendByte b) s = .next t := by
  interval_cases k
  · rw [exec_sendByte_poll here]
    exact ite_completes ⟨_, rfl⟩ (pollFailed_completes 0 _)
  · exact ⟨_, exec_sendByte_handOver here normal (gate rfl) room⟩

theorem exec_receive_completes {i : Instr} (receives : i = .tryReceive ∨ i = .receiveByte) {k : Nat} (here : s.atStep i k)
    (inRange : k ≤ 1) (normal : s.dev.dlab = false) (gate : k = 1 → s.dev.rxq ≠ []) : ∃ t, exec i s = .next t := by
  interval_cases k
  · rcases receives with rfl | rfl
    · rw [exec_tryReceive_poll here]
      exact ite_completes ⟨_, rfl⟩ ⟨_, rfl⟩
    · rw [exec_receiveByte_poll here]
      exact ite_completes ⟨_, rfl⟩ (pollFailed_completes 0 _)
  · obtain ⟨x, q, queued⟩ := List.exists_cons_of_ne_nil (gate rfl)
    exact ⟨_, exec_receive_takeByte receives here normal queued⟩

/-- The position asks for the mode that its access needs, and the gates hold where the data accesses need them. -/
theorem exec_running_completes (inv : Inv s) (h : Discipline s) (busy : s.seq.phase = .busy) :
    ∃ t, exec s.seq.instr s = .next t := by
  have here : s.atStep s.seq.instr s.seq.step := ⟨busy, rfl, rfl⟩
  have inRange := (inv.stepRange busy).1
  have mode := h.mode
  have instr : s.seq.instr = s.seq.cmd.instr s.seq.d s.seq.p s.seq.b := rfl
  rw [instr] at here ⊢
  cases cmd : s.seq.cmd <;> rw [cmd] at here inRange <;> simp only [Seq.expectedDlab, busy, cmd] at mode
  case configure => exact exec_configure_completes here inRange mode
  case setBaud => exact exec_setBaud_completes here inRange mode
  case sendByte => exact exec_sendByte_completes here inRange mode (cap_pos inv.params _) (h.txGate busy cmd)
  case tryReceive => exact exec_receive_completes (.inl rfl) here inRange mode (h.rxGate busy (.inl cmd))
  case receiveByte => exact exec_receive_completes (.inr rfl) here inRange mode (h.rxGate busy (.inr cmd))
  case pollStatus =>
    rw [Nat.le_zero.mp inRange] at here
    exact ⟨_, exec_pollStatus_poll here⟩

end Commands

/-- Settles O53: the turn's beginning keeps the invariant and the discipline. -/
theorem runningCommandNeverStops : Obligations.RunningCommandNeverStops := by
  intro s inv h busy turn
  rw [stepRunsRunningCommand s busy turn]
  exact exec_running_completes (s := beginTurn s) (beginTurn_keeps_inv inv) (beginTurn_discipline h) busy

/-! ### What reaches TXQ -/

/-- Only WR_THR and WR_FCR change TXQ (R131, R139). -/
theorem execRegister_txq {i : Instr} {s t : State} (h : execRegister i s = .next t)
    (other : ∀ b, i ≠ .wrThr b ∧ i ≠ .wrFcr b) : t.dev.txq = s.dev.txq := by
  cases i <;> simp only [execRegister] at h
  case wrThr b => exact absurd rfl (other b).1
  case wrFcr b => exact absurd rfl (other b).2
  case rdRbr =>
    obtain ⟨-, h⟩ := selectedUnder_eq_next.1 h
    split at h <;> (cases h; rfl)
  case wrIer b =>
    obtain ⟨-, h⟩ := selectedUnder_eq_next.1 h
    split at h
    · cases h; rfl
    · cases h
  case rdDll | wrDll | rdIer | rdDlh | wrDlh =>
    cases (selectedUnder_eq_next.1 h).2
    rfl
  case rdIir | rdLcr | wrLcr | rdMcr | rdLsr | rdMsr =>
    cases h
    rfl
  all_goals cases h

theorem Accesses.of_txq_changed {off : Offset} {s t : State} (h : Accesses off s t) (changed : t.dev.txq ≠ s.dev.txq) :
    (s.dev.dlab = false ∧ off = 0) ∨ off = 2 := by
  obtain ⟨w, u, rfl, access, dev, -⟩ := h
  rw [dev] at changed
  by_contra other
  exact changed (execRegister_txq access fun b =>
    ⟨fun selected => other (.inl ⟨decodeBus_dlab selected rfl, by simpa using decodeBus_off selected rfl⟩),
      fun selected => other (.inr (by simpa using decodeBus_off selected rfl))⟩)

theorem MicroStep.txlog_eq {s t : State} (h : MicroStep s t) : t.ghost.txlog = s.ghost.txlog := by
  obtain ⟨w, u, access, rest⟩ := h
  rw [rest.ghost_eq]
  exact (portAccess_frame access).txlog

/-- A disciplined micro-step that changes TXQ is the S1 of SEND_BYTE or the C5 of CONFIGURE. -/
theorem exec_running_txq_changed {s t : State} (h : Discipline s) (busy : s.seq.phase = .busy)
    (run : exec s.seq.instr s = .next t) (changed : t.dev.txq ≠ s.dev.txq) :
    (s.seq.cmd = .sendByte ∧ s.seq.step = 1) ∨ (s.seq.cmd = .configure ∧ s.seq.step = 5) := by
  have position := accessOff_accessAt busy
  obtain ⟨normal, off⟩ | off := (exec_running_accesses busy run).of_txq_changed changed
  · obtain ⟨⟨send | receive, one⟩, -⟩ | ⟨-, one⟩ := position.atData_or_atIer (h.mode.symm.trans normal) (.inl off)
    · exact .inl ⟨send, one⟩
    · obtain ⟨x, q, queued⟩ := List.exists_cons_of_ne_nil (h.rxGate busy receive one)
      have receives : s.seq.instr = .tryReceive ∨ s.seq.instr = .receiveByte := by
        rcases receive with cmd | cmd <;> simp [Seq.instr, Cmd.instr, cmd]
      rw [exec_receive_takeByte receives ⟨busy, rfl, one⟩ normal queued] at run
      cases run
      exact absurd rfl changed
    · rw [off] at one
      cases one
  · exact .inr (position.atFcr off)

/-- A micro-step leaves TXLOG, and TXQ too but for the byte of a SEND_BYTE at S1 and the clearing pulse of CONFIGURE at C5. -/
theorem exec_running_sent {s t : State} (inv : Inv s) (h : Discipline s) (busy : s.seq.phase = .busy)
    (run : exec s.seq.instr s = .next t) :
    t.ghost.txlog = s.ghost.txlog ∧ (t.dev.txq = s.dev.txq ∨
      (s.seq.cmd = .sendByte ∧ t.seq.phase = .idle ∧ t.dev.txq = s.dev.txq ++ [s.seq.b]) ∨
      (s.seq.cmd = .configure ∧ s.seq.step = 5 ∧ t.seq.step = 6 ∧ t.dev.txq = [])) := by
  refine ⟨(exec_running_micro busy run).txlog_eq, ?_⟩
  by_cases same : t.dev.txq = s.dev.txq
  · exact .inl same
  have here (k : Nat) (step : s.seq.step = k) : s.atStep s.seq.instr k := ⟨busy, rfl, step⟩
  obtain ⟨cmd, one⟩ | ⟨cmd, five⟩ := exec_running_txq_changed h busy run same
  · have instr : s.seq.instr = .sendByte s.seq.b := by simp [Seq.instr, Cmd.instr, cmd]
    have normal : s.dev.dlab = false := h.normal_of_dataPath (by simp [cmd])
    have empty := h.txGate busy cmd one
    rw [instr, exec_sendByte_handOver (instr ▸ here 1 one) normal empty (cap_pos inv.params _)] at run
    cases run
    exact .inr (.inl ⟨cmd, rfl, by rw [empty]; rfl⟩)
  · have instr : s.seq.instr = .configure s.seq.p s.seq.d := by simp [Seq.instr, Cmd.instr, cmd]
    rw [instr, exec_configure_writeFcr (instr ▸ here 5 five)] at run
    cases run
    exact .inr (.inr ⟨cmd, five, rfl, rfl⟩)

/-- Settles O59: a drain moves a byte from TXQ to TXLOG, a micro-step does what `exec_running_sent` says, and no other turn reaches
either. -/
theorem sentBytesKeepTheirOrder : Obligations.SentBytesKeepTheirOrder := by
  intro s t inv h sole next notReset
  cases step_turn next with
  | micro _ busy run =>
    obtain ⟨log, same | ⟨cmd, idle, sent⟩ | ⟨cmd, five, six, cleared⟩⟩ :=
      exec_running_sent (s := beginTurn s) (beginTurn_keeps_inv inv) (beginTurn_discipline h) busy run
    · exact .inl (by rw [log, same]; rfl)
    · exact .inr (.inl ⟨busy, cmd, idle, by rw [log, sent, ← List.append_assoc]; rfl⟩)
    · exact .inr (.inr ⟨busy, cmd, five, six, log, cleared⟩)
  | txDrain _ queued => exact .inl (by simp [queued])
  | port foreign => exact absurd (foreign.symm.trans sole) (by decide)
  | reset isReset => exact absurd isReset notReset
  | quiet | submit | take | grant | rxArrive | rxOverrun => exact .inl rfl

end Sys2Proof.Machine

/-! PROOFS. The line agent: what each of its actions does, where it is enabled, and what it leaves unchanged (44_line_agent R250 to
R252, R256). -/

namespace Sys2Proof.Machine

theorem ite_next_eq_next_iff {p : Prop} [Decidable p] {s t : State} {r : Fault} :
    ((if p then .next s else .fault r : Result) = .next t) ↔ p ∧ s = t := by
  split <;> simp [*]

/-! ### An overrun's outcome -/

/-- RXQ after an overrun by `b` at `s`: the free value of the turn says which of R251's two outcomes it is. -/
def overrunQueue (b : Byte) (s : State) : List Byte :=
  if Config.overrunLosesNew (beginTurn s).draws then s.dev.rxq else replaceLast s.dev.rxq b

theorem overrunQueue_cases (b : Byte) (s : State) :
    overrunQueue b s = s.dev.rxq ∨ overrunQueue b s = s.dev.rxq.dropLast ++ [b] :=
  ite_eq_or_eq _ _ _

theorem dropLast_prefix_overrunQueue (b : Byte) (s : State) : s.dev.rxq.dropLast <+: overrunQueue b s := by
  obtain lost | replaced := overrunQueue_cases b s
  · rw [lost]
    exact List.dropLast_prefix _
  · rw [replaced]
    exact List.prefix_append _ _

theorem length_le_overrunQueue (b : Byte) (s : State) : s.dev.rxq.length ≤ (overrunQueue b s).length := by
  obtain lost | replaced := overrunQueue_cases b s
  · rw [lost]
  · rw [replaced, List.length_append, List.length_dropLast]
    exact le_tsub_add

/-! ### The three actions -/

section Actions
variable {s t : State} {b : Byte} {l : List Action}

theorem step_rxArrive (schedule : s.schedule = .rxArrive b :: l) :
    step s = if s.dev.rxq.length < s.dev.cap s.par then
      .next { s with dev := { s.dev with rxq := s.dev.rxq ++ [b] }, schedule := l, draws := s.draws + 1 }
      else .fault .rxArriveNotEnabled := by
  rw [step_cons schedule, beginTurn_of_schedule_cons schedule]
  rfl

theorem step_rxOverrun (schedule : s.schedule = .rxOverrun b :: l) :
    step s = if s.dev.rxq.length = s.dev.cap s.par then
      .next { s with dev := { s.dev with rxq := overrunQueue b s }, schedule := l, draws := s.draws + 2 }
      else .fault .rxOverrunNotEnabled := by
  rw [step_cons schedule, beginTurn_of_schedule_cons schedule]
  rfl

theorem step_txDrain_of_queued (schedule : s.schedule = .txDrain :: l) {x : Byte} {q : List Byte} (queued : s.dev.txq = x :: q) :
    step s = .next { s with
      dev := { s.dev with txq := q }, ghost := { s.ghost with txlog := s.ghost.txlog ++ [x] }
      schedule := l, draws := s.draws + 1 } := by
  rw [step_cons schedule, beginTurn_of_schedule_cons schedule]
  simp only [act, txDrain, queued]
  rfl

theorem step_txDrain_of_empty (schedule : s.schedule = .txDrain :: l) (empty : s.dev.txq = []) :
    step s = .fault .txDrainNotEnabled := by
  rw [step_cons schedule, beginTurn_of_schedule_cons schedule]
  simp only [act, txDrain, empty]

end Actions

/-- Settles O45: each action's equation, on either side of its enabling condition. -/
theorem lineAgentActions : Obligations.LineAgentActions := by
  refine fun s b l => ⟨fun schedule => ⟨fun room => ?_, fun full => ?_⟩, fun schedule => ⟨fun full => ?_, fun notFull => ?_⟩,
    fun schedule => ⟨fun x q queued => step_txDrain_of_queued schedule queued, step_txDrain_of_empty schedule⟩⟩
  · rw [step_rxArrive schedule, if_pos room]
  · rw [step_rxArrive schedule, if_neg (Nat.not_lt.2 full)]
  · exact ⟨_, _, overrunQueue_cases b s, by rw [step_rxOverrun schedule, if_pos full]⟩
  · rw [step_rxOverrun schedule, if_neg notFull]

/-- Settles O46: no equation of the three actions writes more than the queues, TXLOG and the model's own schedule and counter, and none
reads LCR, so each also holds under another. -/
theorem lineAgentFrame : Obligations.LineAgentFrame := by
  rintro s t a l schedule (rfl | ⟨b, rfl | rfl⟩) next
  · cases txq : s.dev.txq with
    | nil =>
      rw [step_txDrain_of_empty schedule txq] at next
      cases next
    | cons x q =>
      rw [step_txDrain_of_queued schedule txq] at next
      cases next
      exact ⟨rfl, rfl, rfl, rfl, rfl, rfl, Nat.le_refl _, List.dropLast_prefix _, fun _ => List.prefix_rfl, List.suffix_cons x q,
        fun v => ⟨_, step_txDrain_of_queued (s := { s with dev := { s.dev with lcr := v } }) schedule txq⟩⟩
  · obtain ⟨room, rfl⟩ := ite_next_eq_next_iff.1 ((step_rxArrive schedule).symm.trans next)
    have kept : s.dev.rxq <+: s.dev.rxq ++ [b] := List.prefix_append _ _
    exact ⟨rfl, rfl, rfl, rfl, rfl, rfl, kept.length_le, (List.dropLast_prefix _).trans kept, fun _ => kept, List.suffix_rfl,
      fun _ => ⟨_, Eq.trans (step_rxArrive schedule) (if_pos room)⟩⟩
  · obtain ⟨full, rfl⟩ := ite_next_eq_next_iff.1 ((step_rxOverrun schedule).symm.trans next)
    exact ⟨rfl, rfl, rfl, rfl, rfl, rfl, length_le_overrunQueue b s, dropLast_prefix_overrunQueue b s,
      fun notOverrun => absurd rfl (notOverrun b), List.suffix_rfl,
      fun _ => ⟨_, Eq.trans (step_rxOverrun schedule) (if_pos full)⟩⟩

end Sys2Proof.Machine

/-! PROOFS. The quiet block: its turn does nothing but use up a free value (60_exceptions R285, 70_reset_and_hazards R301). -/

namespace Sys2Proof.Machine

theorem ownTurn_of_quiet {s : State} (idle : s.seq.phase = .idle) (noPending : s.arb.pending = []) : ownTurn s = .next s := by
  simp only [ownTurn, idle, noPending]

theorem beginTurn_of_schedule_nil {s : State} (h : s.schedule = []) : beginTurn s = { s with draws := s.draws + 1 } := by
  rw [beginTurn, h, List.tail_nil, ← h]
  rfl

/-- Settles O25: the turn is the block's own, and a quiet block's own turn leaves the state the turn began in. -/
theorem quietBlockStaysIdle : Obligations.QuietBlockStaysIdle := by
  intro s idle noPending schedule
  rw [step_nil schedule, ownTurn_of_quiet (s := beginTurn s) idle noPending, beginTurn_of_schedule_nil schedule]

end Sys2Proof.Machine

/-! PROOFS. The interrupt output (60_exceptions R276). -/

namespace Sys2Proof.Machine

section Level
variable {d : Dev}

/-! ### The receive threshold (R39) -/

theorem trigThreshold_of_fifo_off (off : d.fifoEn = false) : d.trigThreshold = 1 := by
  rw [Dev.trigThreshold, off]
  rfl

/-- Trigger code 11 is the source's 14 bytes (R98). -/
theorem trigThreshold_of_fourteen (on : d.fifoEn = true) (code : d.rxTrig = 0b11) : d.trigThreshold = 14 := by
  rw [Dev.trigThreshold, on, code]
  rfl

/-! ### The OR of the enabled terms (R276; the spec's choice D20) -/

theorem irq_eq_rxCond (enabled : d.ier = 0x01) (ls : Bool) : d.irq ls = d.rxCond := by
  simp [Dev.irq, enabled]

theorem irq_eq_txEmpty (enabled : d.ier = 0x02) (ls : Bool) : d.irq ls = d.txEmpty := by
  simp [Dev.irq, enabled]

theorem irq_eq_lsCond (enabled : d.ier = 0x04) (ls : Bool) : d.irq ls = ls := by
  simp [Dev.irq, enabled]

/-- The equation of R276, read as a statement. -/
theorem irq_eq_true_iff (ls : Bool) : d.irq ls = true ↔
    (d.ier.getLsbD 0 = true ∧ d.trigThreshold ≤ d.rxq.length) ∨ (d.ier.getLsbD 1 = true ∧ d.txq = []) ∨
      (d.ier.getLsbD 2 = true ∧ ls = true) := by
  simp [Dev.irq, Dev.rxCond, Dev.txEmpty, or_assoc]

theorem getLsbD_eq_false_of_and_seven {b : Byte} (masked : b &&& 0x07 = 0) {i : Nat} (low : i < 3) : b.getLsbD i = false := by
  have bit : (b &&& 0x07).getLsbD i = false := by
    rw [masked]
    exact BitVec.getLsbD_zero
  have mask : (0x07 : Byte).getLsbD i = true := by interval_cases i <;> rfl
  rwa [BitVec.getLsbD_and, mask, Bool.and_true] at bit

/-- With the three enables clear no term can rise, whatever bits 7:3 of IER are. -/
theorem irq_eq_false_of_disabled (disabled : d.ier &&& 0x07 = 0) (ls : Bool) : d.irq ls = false := by
  have clear (i : Nat) (low : i < 3) : d.ier.getLsbD i = false := getLsbD_eq_false_of_and_seven disabled low
  rw [Dev.irq, clear 0 (by decide), clear 1 (by decide), clear 2 (by decide)]
  rfl

end Level

/-- Settles O49: each single enable leaves its own term, and the thresholds are R39's. -/
theorem interruptLevel : Obligations.InterruptLevel := by
  refine fun d ls => ⟨fun disabled => irq_eq_false_of_disabled disabled ls, fun enabled on code => ?_, fun enabled off => ?_,
    fun enabled => ?_, fun enabled => irq_eq_lsCond enabled ls, irq_eq_true_iff ls⟩
  · rw [irq_eq_rxCond enabled, Dev.rxCond, trigThreshold_of_fourteen on code]
  · rw [irq_eq_rxCond enabled, Dev.rxCond, trigThreshold_of_fifo_off off]
  · rw [irq_eq_txEmpty enabled, txEmpty_eq]

end Sys2Proof.Machine

/-! PROOFS. Reset in any state (70_reset_and_hazards R300, R302). -/

namespace Sys2Proof.Machine

/-- Reset has no enabling condition, so its turn always completes. -/
theorem step_reset {s : State} {l : List Action} (schedule : s.schedule = .reset :: l) :
    step s = .next (takeReset (beginTurn s)) := by
  rw [step_cons schedule, act]

/-- Settles O48: the state left is `takeReset`'s, which reads only the parameters, the draw counter and the rest of the schedule. -/
theorem resetDropsEverything : Obligations.ResetDropsEverything := by
  intro s l schedule
  have turnsLeft : (takeReset (beginTurn s)).schedule = l := by
    rw [takeReset_schedule, beginTurn_schedule, schedule, List.tail_cons]
  have image : (takeReset (beginTurn s)).dev = Dev.ofImage s.par.resetImage (s.draws + 1) := by
    rw [takeReset_dev, beginTurn_par, beginTurn_draws]
  exact ⟨_, step_reset schedule, image, rfl, rfl, rfl, rfl, rfl, rfl, rfl, turnsLeft⟩

end Sys2Proof.Machine

/-! PROOFS. A placed word (30_encoding R91, R106; log 12, log 13): the turn placed first is the decoded instruction's. -/

namespace Sys2Proof.Machine

section PlacedWord

variable {s : State} {nbits w : Nat}

/-! ### The table word, by its format -/

theorem decodeTableWord_of_bus {i : Instr} (short : nbits ≤ 16) (word : decodeTableWord nbits w = some i) :
    decodeBus false (BitVec.ofNat 12 w) = i := by
  rw [decodeTableWord, if_pos short, Option.ite_none_right_eq_some] at word
  exact Option.some.inj word.2

theorem decodeTableWord_of_cmd {i : Instr} (long : ¬nbits ≤ 16) (word : decodeTableWord nbits w = some i) :
    decodeCmd (BitVec.ofNat 32 w) = .ok i := by
  rw [decodeTableWord, if_neg long, Option.ite_none_right_eq_some] at word
  obtain ⟨-, decodes⟩ := word
  cases decoded : decodeCmd (BitVec.ofNat 32 w) with
  | ok j =>
    rw [decoded] at decodes
    exact congrArg _ (Option.some.inj decodes)
  | error e =>
    rw [decoded] at decodes
    cases decodes

/-! ### The placing -/

theorem withFetchWord_of_bus (short : nbits ≤ 16) :
    s.withFetchWord nbits w = s.setSchedule (.raw (BitVec.ofNat 12 w) :: s.schedule) := by
  rw [State.withFetchWord, placeWord, if_pos short]

theorem withFetchWord_of_cmd (long : ¬nbits ≤ 16) {c : Cmd} (word : cmdOf (BitVec.ofNat 32 w) = .ok c) :
    s.withFetchWord nbits w = (s.setSeq (s.seq.load 0 c (BitVec.ofNat 32 w))).setSchedule (.microStep :: s.schedule) := by
  rw [State.withFetchWord, placeWord, if_neg long, word]

end PlacedWord

theorem microStep_of_busy {s : State} (busy : s.seq.phase = .busy) : microStep s = exec s.seq.instr s := by
  simp only [microStep, busy]

/-- Settles O24: a bus word's turn decodes it in the Normal mode that the table word is read in, and a command word's turn is the
first micro-step of the command just loaded. -/
theorem placedWordRunsNext : Obligations.PlacedWordRunsNext := by
  intro s nbits w i normal word
  by_cases short : nbits ≤ 16
  · rw [withFetchWord_of_bus short]
    refine ⟨?_, rfl⟩
    rw [step_cons (State.setSchedule_schedule _ _), act, busTurn, beginTurn_dev, State.setSchedule_dev, normal,
      decodeTableWord_of_bus short word]
  · obtain ⟨c, isCommand, rfl⟩ := decodeCmd_eq_ok_iff.mp (decodeTableWord_of_cmd short word)
    rw [withFetchWord_of_cmd short isCommand]
    refine ⟨?_, rfl⟩
    rw [step_cons (State.setSchedule_schedule _ _), act, microStep_of_busy rfl]
    rfl

end Sys2Proof.Machine

/-! PROOFS. The two stops of the model's own (log 10, log 11): the guard of each arm of `exec`. -/

namespace Sys2Proof.Machine

/-- An operation that the offset decode selects by the divisor-latch-enable bit asks for that bit itself (R92). -/
theorem exec_eq_selectedUnder {i : Instr} {m : Bool} (selected : i.selectedBy = some m) (s : State) :
    ∃ o, exec i s = selectedUnder m s o := by
  cases i with
  | rdRbr | wrThr | rdIer | wrIer | rdDll | wrDll | rdDlh | wrDlh =>
    cases selected
    exact ⟨_, rfl⟩
  | _ => cases selected

/-- Settles O20: each of the eight operations is guarded by its own bit. -/
theorem unselectedOperationStops : Obligations.UnselectedOperationStops := by
  intro i s m selected other
  obtain ⟨o, guarded⟩ := exec_eq_selectedUnder selected s
  exact guarded.trans (selectedUnder_neg other o)

/-- Every command asks first whether the sequencer is running it (R34). -/
theorem exec_eq_whileRunning (c : Cmd) (d : Divisor) (p : BitVec 3) (b : Byte) (s : State) :
    ∃ o, exec (c.instr d p b) s = whileRunning (c.instr d p b) s o := by
  cases c <;> exact ⟨_, rfl⟩

theorem whileRunning_neg {i : Instr} {s : State} (notRunning : s.seq.phase = .idle ∨ s.seq.instr ≠ i) (o : Result) :
    whileRunning i s o = .fault .commandNotRunning := by
  refine if_neg fun ⟨busy, same⟩ => ?_
  obtain idle | different := notRunning
  · exact Phase.noConfusion (idle.symm.trans busy)
  · exact different same

/-- Settles O39: the guard of every command fails for an idle sequencer, and for another command or other operands. -/
theorem commandNotRunningStops : Obligations.CommandNotRunningStops := by
  intro s c d p b notRunning
  obtain ⟨o, guarded⟩ := exec_eq_whileRunning c d p b s
  exact guarded.trans (whileRunning_neg notRunning o)

end Sys2Proof.Machine
